-- ==== Sys2Proof/Word.lean ====
section
/-! DEFINITION. The word types of the precision-masked sign detector (00_scope.md R10, R12): every
value of the block is an unsigned bit vector, bit 0 the least significant. -/

namespace Sys2Proof

/-- One of the three value words `high`, `med`, `low` (R10 `WORD_W`). -/
abbrev Word := BitVec 32

/-- An 8-bit value: the opcode, the precision tag, a byte of a serialised word, `ST` as read. -/
abbrev Byte := BitVec 8

/-- A packed word `P[103:0]`: the operand of a command and the width of `RES` (R10 `PACK_W`, R73). -/
abbrev Packed := BitVec 104

/-- A command word `CMD[111:0]` (R10 `CMD_W`, R70). -/
abbrev Command := BitVec 112

end Sys2Proof
end

