-- ==== Sys2Proof/Syntax.lean ====
section
/-! DEFINITION. The commands of the block (30_encoding.md R80), one constructor per row of
spec/opcode_table.json, and the lines of the assembler's source text (R85). -/

namespace Sys2Proof

/-- A decoded command. A D-format command carries its operand `OPA`, a packed word taken verbatim
(R71, R77); an N-format command carries none, because it ignores `OPA` (R72). -/
inductive Instr where
  /-- `NEW` (R104). -/
  | new (opa : Packed)
  /-- `VALIDATE` (R106). -/
  | validate (opa : Packed)
  /-- `UNSIGN` (R120). -/
  | unsign (opa : Packed)
  /-- `ISZ` (R131). -/
  | isz (opa : Packed)
  /-- `ISP` (R132). -/
  | isp (opa : Packed)
  /-- `ISN` (R133). -/
  | isn (opa : Packed)
  /-- `ISAZ` (R145). -/
  | isaz (opa : Packed)
  /-- `ISAP` (R146). -/
  | isap (opa : Packed)
  /-- `ISAN` (R147). -/
  | isan (opa : Packed)
  /-- `CLASS` (R148). -/
  | classify (opa : Packed)
  /-- `CMAX` (R108). -/
  | cmax
  /-- `CMIN` (R109). -/
  | cmin
  /-- `CZERO` (R110). -/
  | czero
  /-- `TOSTR` (R170). -/
  | tostr
  deriving DecidableEq, Repr

/-- The D-format mnemonics (R71, R80). -/
inductive DMnemonic where
  | new | validate | unsign | isz | isp | isn | isaz | isap | isan | classify
  deriving DecidableEq, Repr

/-- The N-format mnemonics (R71, R80). -/
inductive NMnemonic where
  | cmax | cmin | czero | tostr
  deriving DecidableEq, Repr

/-- The operands of a D-format line (R85): four numbers in source order, not yet checked against
their fields' widths, or the single pseudo-operand `@RES` (R86). -/
inductive AsmOperand where
  | fields (high med low prec : Nat)
  | res
  deriving DecidableEq, Repr

/-- One line of assembler source that holds a command (R85). -/
inductive AsmLine where
  /-- An N-format command, with no operands. -/
  | nform (m : NMnemonic)
  /-- A D-format command with its operands. -/
  | dform (m : DMnemonic) (o : AsmOperand)
  /-- `.cmd X`: the raw command word `X`. -/
  | raw (x : Nat)
  deriving DecidableEq, Repr

/-- Why the assembler refuses a line (R85). -/
inductive AsmError where
  /-- The first word of the line is neither a mnemonic of R80 nor `.cmd`. -/
  | unknownMnemonic
  /-- The number or the form of the operands is not one R85 gives the command. -/
  | badOperands
  /-- An operand is not a decimal or `0x` number. -/
  | badNumber
  /-- A number does not fit its field. -/
  | numberTooWide
  deriving DecidableEq, Repr

end Sys2Proof
end

