-- ==== Sys2Proof/WellFormed.lean ====
section
/-! DEFINITION. Which terms of the syntax are well formed. A decoded command always is: its fields are
bit vectors of the spec's widths and every bit pattern is allowed, an invalid `prec` being a dynamic
error and not an encoding error (30_encoding.md R77, R85; 40_construction.md R101). A line of
assembler source is checked: a number must fit its field (R85). -/

namespace Sys2Proof

/-- Every command that `Instr` can write is one the block accepts (R77, R87, R104). -/
def Instr.wellFormed : Instr → Bool
  | .new _ | .validate _ | .unsign _ => true
  | .isz _ | .isp _ | .isn _ => true
  | .isaz _ | .isap _ | .isan _ | .classify _ => true
  | .cmax | .cmin | .czero | .tostr => true

/-- The numbers of the operands fit their fields: 32 bits a word, 8 bits `prec` (R85). A `prec` of 0 or
above 95 fits. -/
def AsmOperand.wellFormed : AsmOperand → Bool
  | .fields high med low prec =>
    decide (high < 2 ^ 32) && decide (med < 2 ^ 32) && decide (low < 2 ^ 32) && decide (prec < 2 ^ 8)
  | .res => true

/-- A line assembles: its numbers fit, and a raw word has at most 112 bits (R85). -/
def AsmLine.wellFormed : AsmLine → Bool
  | .nform _ => true
  | .dform _ o => o.wellFormed
  | .raw x => decide (x < 2 ^ 112)

end Sys2Proof
end

