-- ==== Sys2Proof/Decode.lean ====
section
/-! DEFINITION. Decoding a command word (30_encoding.md R70, R80 to R83, R87), its encoder, and the byte
order in which a host adaptor carries a command (20_memory.md R55). -/

namespace Sys2Proof

/-- Why a word or a list of bytes is no command of the table. -/
inductive DecodeError where
  /-- `OP` is one of the 242 reserved opcodes (R82). -/
  | reservedOpcode (op : Byte)
  /-- A command has 14 bytes, no other length (R70, R83). -/
  | wrongLength (n : Nat)
  deriving DecidableEq, Repr

/-- `CMD.OP`, bits 111:104 (R70). -/
def opField (c : Command) : Byte := c.extractLsb' 104 8

/-- `CMD.OPA`, bits 103:0 (R70). -/
def opaField (c : Command) : Packed := c.extractLsb' 0 104

/-- A command word from its two fields (R70). -/
def command (op : Byte) (opa : Packed) : Command := op ++ opa

/-- Decoding compares all eight bits of `OP` with the table and looks at no bit of `OPA` (R80, R81). -/
def decode (c : Command) : Except DecodeError Instr :=
  match (opField c).toNat with
  | 0x01 => .ok (.new (opaField c))
  | 0x02 => .ok (.validate (opaField c))
  | 0x03 => .ok (.unsign (opaField c))
  | 0x10 => .ok (.isz (opaField c))
  | 0x11 => .ok (.isp (opaField c))
  | 0x12 => .ok (.isn (opaField c))
  | 0x18 => .ok (.isaz (opaField c))
  | 0x19 => .ok (.isap (opaField c))
  | 0x1A => .ok (.isan (opaField c))
  | 0x1F => .ok (.classify (opaField c))
  | 0x20 => .ok .cmax
  | 0x21 => .ok .cmin
  | 0x22 => .ok .czero
  | 0x30 => .ok .tostr
  | _ => .error (.reservedOpcode (opField c))

/-- The opcode of a command (R80). -/
def Instr.opcode : Instr → Byte
  | .new _ => 0x01
  | .validate _ => 0x02
  | .unsign _ => 0x03
  | .isz _ => 0x10
  | .isp _ => 0x11
  | .isn _ => 0x12
  | .isaz _ => 0x18
  | .isap _ => 0x19
  | .isan _ => 0x1A
  | .classify _ => 0x1F
  | .cmax => 0x20
  | .cmin => 0x21
  | .czero => 0x22
  | .tostr => 0x30

/-- The operand field of a command's word: an assembler emits zeros for the N format (R72, R85). -/
def Instr.operand : Instr → Packed
  | .new opa | .validate opa | .unsign opa => opa
  | .isz opa | .isp opa | .isn opa => opa
  | .isaz opa | .isap opa | .isan opa | .classify opa => opa
  | .cmax | .cmin | .czero | .tostr => 0

/-- Whether the command is of the D format (R71). -/
def Instr.isD : Instr → Bool
  | .new _ | .validate _ | .unsign _ | .isz _ | .isp _ | .isn _ => true
  | .isaz _ | .isap _ | .isan _ | .classify _ => true
  | .cmax | .cmin | .czero | .tostr => false

/-- The word of a command (R70, R80, R85). -/
def encode (i : Instr) : Command := command i.opcode i.operand

/-- The command a D-format mnemonic makes of an operand (R80, R85). -/
def DMnemonic.instr : DMnemonic → Packed → Instr
  | .new, p => .new p
  | .validate, p => .validate p
  | .unsign, p => .unsign p
  | .isz, p => .isz p
  | .isp, p => .isp p
  | .isn, p => .isn p
  | .isaz, p => .isaz p
  | .isap, p => .isap p
  | .isan, p => .isan p
  | .classify, p => .classify p

/-- The command an N-format mnemonic stands for (R80, R85). -/
def NMnemonic.instr : NMnemonic → Instr
  | .cmax => .cmax
  | .cmin => .cmin
  | .czero => .czero
  | .tostr => .tostr

/-- A number as `n` words of `w` bits, word `j` being bits `wj+w-1 : wj`: the order of every channel of a
host adaptor, bytes (`w = 8`) among them (R55). -/
def toWordsLE (w : Nat) : Nat → Nat → List (BitVec w)
  | 0, _ => []
  | n + 1, v => BitVec.ofNat w v :: toWordsLE w n (v / 2 ^ w)

/-- The number that words in this order spell (R55). -/
def ofWordsLE (w : Nat) : List (BitVec w) → Nat
  | [] => 0
  | b :: bs => b.toNat + 2 ^ w * ofWordsLE w bs

/-- The 14 bytes of a command on a byte-wide channel (R55). -/
def commandBytes (c : Command) : List Byte := toWordsLE 8 14 c.toNat

/-- The command that 14 bytes carry: the adaptor presents the whole word or none (R55, R57). -/
def commandOfBytes (bs : List Byte) : Except DecodeError Command :=
  if bs.length = 14 then .ok (BitVec.ofNat 112 (ofWordsLE 8 bs)) else .error (.wrongLength bs.length)

/-- Decoding of a list of bytes, total: any list is a command or is rejected by name. -/
def decodeBytes (bs : List Byte) : Except DecodeError Instr :=
  match commandOfBytes bs with
  | .ok c => decode c
  | .error e => .error e

/-- The command word whose low `nbits` bits are `w`, as spec/opcode_table.json numbers them: the table's
one word is the whole command, so its bit numbers are those of R70, and the bits above are 0. -/
def tableWord (nbits w : Nat) : Command := BitVec.ofNat 112 (w % 2 ^ nbits)

/-- The instruction that the decoder reads from a table word. -/
def decodeTableWord (nbits w : Nat) : Option Instr :=
  match decodeBytes (commandBytes (tableWord nbits w)) with
  | .ok i => some i
  | .error _ => none

end Sys2Proof
end

