-- ==== Sys2Proof/Config.lean ====
section
/-! DEFINITION. What a build of the block fixes (00_scope.md R10, R11) and the free values: the
registers before the first reset edge, which the spec leaves unspecified (93 I1). -/

namespace Sys2Proof

/-- The two forms of the precision-aware zero test (R11). -/
inductive ApzForm where
  /-- The top `prec` magnitude bits are tested (R142). -/
  | mask
  /-- The bits that the literal shift formulas select (R143); for comparison only. -/
  | shiftLiteral
  deriving DecidableEq, Repr

/-- `APZ_FORM` of this hardware (R10, R11): a build parameter no command reads or writes (R38). -/
def Config.apzForm : ApzForm := .mask

/-- `PREC_MIN` (R10). -/
def Config.precMin : Nat := 1

/-- `PREC_MAX` (R10). -/
def Config.precMax : Nat := 95

/-- FREE VALUE: `RES` at the `n`-th power-up, before the first reset edge (R211, 93 I1; log entry 4). -/
opaque Config.powerUpRes : Nat → Packed

/-- FREE VALUE: `ST.ERR` at the `n`-th power-up (R211, 93 I1; log entry 4). -/
opaque Config.powerUpErr : Nat → BitVec 4

/-- FREE VALUE: `ST.RV` at the `n`-th power-up (R211, 93 I1; log entry 4). -/
opaque Config.powerUpRv : Nat → Bool

/-- FREE VALUE: `ST.EF` at the `n`-th power-up (R211, 93 I1; log entry 4). -/
opaque Config.powerUpEf : Nat → Bool

end Sys2Proof
end

