-- ==== Sys2Proof/Machine/State.lean ====
section
/-! DEFINITION. The state of the machine (10_state.md R20 to R30, R39): the two registers of the block and,
because a step is a function of the state alone, the list of what the host will do at its ports. -/

namespace Sys2Proof.Machine

/-- The status register `ST` by its fields (R24). The reserved bits `ST[7:6]` are hardwired 0 (R28) and
have no field: the read `Status.word` gives them as 0. -/
structure Status where
  /-- `ST.ERR`, bits 3:0 (R25). -/
  err : BitVec 4
  /-- `ST.RV`, bit 4 (R26). -/
  rv : Bool
  /-- `ST.EF`, bit 5 (R27). -/
  ef : Bool
  deriving DecidableEq, Repr

/-- The error codes other than 0 (60_exceptions.md R180). -/
inductive ErrorCode where
  | invalidPrecision
  | unsupported
  | illegalOpcode
  deriving DecidableEq, Repr

/-- What the host drives on the port `CMD`. -/
inductive CmdSource where
  /-- A 112-bit word (R70). -/
  | word (c : Command)
  /-- An opcode over the value that `RES_O` shows when the host builds the command: `@RES` (R86). -/
  | resOperand (op : Byte)
  deriving DecidableEq, Repr

/-- The levels of the input ports (R20) as a rising edge of `CLK` samples them. `none` is a port that is
not at a defined logic level, or not stable across the edge (70 R220, 93 I2). -/
structure Pins where
  rst : Option Bool
  cmdValid : Option Bool
  cmd : Option CmdSource
  deriving DecidableEq, Repr

/-- One thing the host does (70 R221). -/
inductive HostEvent where
  /-- The ports at the next rising edge of `CLK`. -/
  | edge (p : Pins)
  /-- The host reads `RES_O` as a command's result (10 R40). -/
  | readResult
  /-- The host reads `ST_O` (10 R24). -/
  | readStatus
  deriving DecidableEq, Repr

/-- The whole machine. -/
structure State where
  /-- `RES[103:0]` (R23). -/
  res : Packed
  /-- `ST` (R24). -/
  status : Status
  /-- The MODEL's own field, not the spec's: what the host will do, the next first (log entry 1). -/
  host : List HostEvent
  deriving DecidableEq, Repr

/-- Why the machine stops with a fault. -/
inductive Fault where
  /-- Raised by `readResult` when the host reads `RES` as a result while `ST.RV = 0` (R40, D30). Safe: the
  block itself would show a value, the model gives none. -/
  | noValue
  deriving DecidableEq, Repr

/-- Why the model gives a step no meaning. -/
inductive Refusal where
  /-- Raised by an arm of `exec` for an instruction without a meaning: no arm does. Safe. -/
  | notModelled (mnemonic : String)
  /-- Raised by an edge at which a port is not at a defined level (R220, 93 I2). Safe: the block's response
  is not defined, and no claim is made of it. -/
  | undefinedInput
  /-- Raised by `readStatus` when `ST.ERR` is 4 to 15, a state the spec gives no meaning (93 I5). Safe: no
  run from a reset edge reaches it. -/
  | reservedErrorCode
  deriving DecidableEq, Repr

/-- What an edge or a read of the host is, once its ports are looked at (70 R211 to R213, R220, R221). -/
inductive EventKind where
  | resetEdge
  | idleEdge
  | acceptEdge (c : Command)
  | undefinedEdge
  | resultRead
  | statusRead
  deriving DecidableEq, Repr

/-- The machine right after a reset edge (R39, R211); the host's list is empty (log entry 1). -/
def State.reset : State where
  res := 0
  status := { err := 0, rv := false, ef := false }
  host := []

end Sys2Proof.Machine
end

