-- ==== Sys2Proof/Machine/Flags.lean ====
section
/-! DEFINITION. The status register: the error codes, what success and error write, and `ST` as a byte
(10_state.md R24 to R28; 60_exceptions.md R180, R182, R183). -/

namespace Sys2Proof.Machine

/-- The number of an error code (R180). -/
def ErrorCode.bits : ErrorCode → BitVec 4
  | .invalidPrecision => 1
  | .unsupported => 2
  | .illegalOpcode => 3

/-- Success: `ERR <- 0`, `RV <- 1`, `EF` unchanged (R182). -/
def Status.onSuccess (st : Status) : Status := { st with err := 0, rv := true }

/-- Error: `ERR <- code`, `EF <- 1`, `RV` unchanged (R183). -/
def Status.onError (code : ErrorCode) (st : Status) : Status := { st with err := code.bits, ef := true }

/-- `ST[7:0]` as the host reads it: bits 7:6 are 0, then `EF`, `RV`, `ERR` (R24, R28). -/
def Status.word (st : Status) : Byte :=
  (0#2 ++ BitVec.ofBool st.ef) ++ BitVec.ofBool st.rv ++ st.err

/-- `ST.ERR` is one of the codes 0 to 3 (R25, R180). -/
def Status.errDefined (st : Status) : Bool := decide (st.err.toNat ≤ 3)

end Sys2Proof.Machine
end

