-- ==== Sys2Proof/Machine/Operands.lean ====
section
/-! DEFINITION. The packed word: its field extractors (30_encoding.md R73 to R77), validity
(40_construction.md R100), the Boolean results (R78) and the named constants (10_state.md R35 to R37). -/

namespace Sys2Proof.Machine

/-- `v[hi:lo]` as a number; an empty slice (`hi < lo`) is 0 (00_scope.md R12). -/
def slice (v hi lo : Nat) : Nat := v / 2 ^ lo % 2 ^ (hi + 1 - lo)

/-- `high(P) = P[95:64]` (R75). -/
def high (P : Packed) : Word := P.extractLsb' 64 32

/-- `med(P) = P[63:32]` (R75). -/
def med (P : Packed) : Word := P.extractLsb' 32 32

/-- `low(P) = P[31:0]` (R75). -/
def low (P : Packed) : Word := P.extractLsb' 0 32

/-- `prec(P) = P[103:96]` (R75). -/
def prec (P : Packed) : Byte := P.extractLsb' 96 8

/-- `sign(P) = P[95]` (R76). -/
def sign (P : Packed) : Bool := P.getLsbD 95

/-- `mag(P) = P[94:0]` (R76). -/
def mag (P : Packed) : BitVec 95 := P.extractLsb' 0 95

/-- `field(P) = P[95:0]` (R76). -/
def field (P : Packed) : BitVec 96 := P.extractLsb' 0 96

/-- A packed word from its four fields, `{prec, high, med, low}` (R73). -/
def pack (p : Byte) (h m l : Word) : Packed := p ++ h ++ m ++ l

/-- `valid(P)`: the precision is in [1, 95]; the words do not matter (R100). -/
def valid (P : Packed) : Bool :=
  decide (Config.precMin ≤ (prec P).toNat) && decide ((prec P).toNat ≤ Config.precMax)

/-- A Boolean as a result: `zext_104(b2v(b))` (R78). -/
def boolResult (b : Bool) : Packed := if b then 1 else 0

/-- The constant `MAX` (R35). -/
def maxWord : Packed := pack 95 0x7FFFFFFF 0xFFFFFFFF 0xFFFFFFFF

/-- The constant `MIN`; its bits are normative, its name claims no order (R36, 90 C2). -/
def minWord : Packed := pack 95 0xFFFFFFFF 0xFFFFFFFF 0xFFFFFFFF

/-- The constant `ZERO`, of precision 95 (R37). -/
def zeroWord : Packed := pack 95 0 0 0

end Sys2Proof.Machine
end

