-- ==== Sys2Proof/Machine/Ops.lean ====
section
/-! DEFINITION. The shared operations: the success and error protocols (60_exceptions.md R182, R183), the
validation step (40_construction.md R101), the edges of the clock (70_reset_and_hazards.md R211 to R213),
the output ports and the host's reads (10_state.md R20, R40). The block takes no exception and returns
from none (60 R189, R190): `raiseError` is what an error does instead. -/

namespace Sys2Proof.Machine

/-- `succeed(v)` (R182). -/
def succeed (v : Packed) (s : State) : State := { s with res := v, status := s.status.onSuccess }

/-- `raise Error(code)`: `RES` is unchanged (R183). -/
def raiseError (code : ErrorCode) (s : State) : State := { s with status := s.status.onError code }

/-- A D-format command other than `VALIDATE`: the validation step comes before any write, then the
command succeeds with `f` of its operand (R101, R102, R186). -/
def withValid (opa : Packed) (f : Packed → Packed) (s : State) : State :=
  if valid opa then succeed (f opa) s else raiseError .invalidPrecision s

/-- A reset edge: `RES <- 0`, `ST <- 0`; the other ports are ignored (R211). -/
def resetRegs (s : State) : State := { s with res := 0, status := { err := 0, rv := false, ef := false } }

/-- An accept edge whose opcode is reserved: `ILLEGAL_OPCODE`, the operand not read (R82, R185). A word is
112 bits, so the other decoding error does not arise here. -/
def rejectCommand (_ : DecodeError) (s : State) : State := raiseError .illegalOpcode s

/-- `RES_O` (R20, R23). -/
def resO (s : State) : Packed := s.res

/-- `ST_O` (R20, R24). -/
def stO (s : State) : Byte := s.status.word

/-- The word on `CMD` when the edge samples it: `@RES` stands for the value of `RES_O` after the last edge
(R86); also while `RV` is 0, where the copy is no read of `RES` as a result (DEDUCED, log entry 7). -/
def CmdSource.value (s : State) : CmdSource → Command
  | .word c => c
  | .resOperand op => command op (resO s)

/-- What a sample of the ports is: reset beats a command (R211), `CMD_VALID` tells an accept edge from an
idle edge (R212, R213), and a port without a defined level makes the edge undefined (R220, 93 I2). -/
def Pins.kind (s : State) (p : Pins) : EventKind :=
  match p.rst, p.cmdValid, p.cmd with
  | some true, some _, some _ => .resetEdge
  | some false, some true, some src => .acceptEdge (src.value s)
  | some false, some false, some _ => .idleEdge
  | none, _, _ => .undefinedEdge
  | some _, none, _ => .undefinedEdge
  | some _, some _, none => .undefinedEdge

/-- What happens next. When the host's list is over it presents nothing more: idle edges (log entry 1). -/
def nextKind (s : State) : EventKind :=
  match s.host with
  | [] => .idleEdge
  | .edge p :: _ => p.kind s
  | .readResult :: _ => .resultRead
  | .readStatus :: _ => .statusRead

/-- The host's list moves on by one; the block's registers stay (R213, R58). -/
def advance (s : State) : State := { s with host := s.host.tail }

/-- A read of `RES` as a command's result: no value while `ST.RV = 0` (R40). -/
def readResult (s : State) : Host.Outcome Packed Fault Refusal :=
  if s.status.rv then .next (resO s) else .fault .noValue

/-- A read of `ST`: a state whose `ERR` is reserved has no meaning (93 I5). -/
def readStatus (s : State) : Host.Outcome Byte Fault Refusal :=
  if s.status.errDefined then .next (stO s) else .refused .reservedErrorCode

/-- After a read, which has no side effect, the machine is `t` (R58). -/
def afterRead {α : Type} (t : State) : Host.Outcome α Fault Refusal → Host.Outcome State Fault Refusal
  | .next _ => .next t
  | .fault r => .fault r
  | .refused r => .refused r

/-- The ports of an edge that presents the command word `c`, with no reset. -/
def present (c : Command) : HostEvent :=
  .edge { rst := some false, cmdValid := some true, cmd := some (.word c) }

/-- The machine after its `n`-th power-up, before any reset edge: every register is a free value
(R211, 93 I1; log entry 4); `ST[7:6]` is still 0 (R28). -/
def State.powerUp (n : Nat) : State where
  res := Config.powerUpRes n
  status := { err := Config.powerUpErr n, rv := Config.powerUpRv n, ef := Config.powerUpEf n }
  host := []

end Sys2Proof.Machine
end

