-- ==== Sys2Proof/Machine/Exact.lean ====
section
/-! DEFINITION. The exact predicates (42_exact_predicates.md): they never read `prec` but to validate it
(R136). -/

namespace Sys2Proof.Machine

/-- `is_zero(P)`: all three words are zero, the sign bit included (R130). -/
def isZero (P : Packed) : Bool := high P == 0 && med P == 0 && low P == 0

/-- `is_positive(P)` (R130). -/
def isPositive (P : Packed) : Bool := !sign P && !isZero P

/-- `is_negative(P)`: a zero magnitude is not excluded (R130, R134). -/
def isNegative (P : Packed) : Bool := sign P

/-- `ISZ` (R131). -/
def execIsz (opa : Packed) (s : State) : Host.Outcome State Fault Refusal :=
  .next (withValid opa (fun P => boolResult (isZero P)) s)

/-- `ISP` (R132). -/
def execIsp (opa : Packed) (s : State) : Host.Outcome State Fault Refusal :=
  .next (withValid opa (fun P => boolResult (isPositive P)) s)

/-- `ISN` (R133). -/
def execIsn (opa : Packed) (s : State) : Host.Outcome State Fault Refusal :=
  .next (withValid opa (fun P => boolResult (isNegative P)) s)

end Sys2Proof.Machine
end

