-- ==== Sys2Proof/Machine/Approx.lean ====
section
/-! DEFINITION. The precision-aware predicates (43_approx_predicates.md): the window mask, both forms of
the zero test, and the four commands. -/

namespace Sys2Proof.Machine

/-- `WMASK(p) = (2^p - 1) * 2^(95 - p)`, computed exactly (R141). -/
def wmask (p : Nat) : BitVec 95 := BitVec.ofNat 95 ((2 ^ p - 1) * 2 ^ (95 - p))

/-- `az_mask(P)`: the top `prec` magnitude bits are zero (R142). -/
def azMask (P : Packed) : Bool := (mag P &&& wmask (prec P).toNat) == 0

/-- The test of R142 word by word, in the source's four bands; `azMask` is what the block computes, this is
the same function written the other way (R153). -/
def azBands (P : Packed) : Bool :=
  let p := (prec P).toNat
  let hs := slice (high P).toNat 30 0
  if p < 31 then slice (high P).toNat 30 (31 - p) == 0
  else if p < 63 then hs == 0 && slice (med P).toNat 31 (63 - p) == 0
  else if p < 95 then hs == 0 && (med P).toNat == 0 && slice (low P).toNat 31 (95 - p) == 0
  else hs == 0 && (med P).toNat == 0 && (low P).toNat == 0

/-- `az_lit(P)`: the literal shift formulas, with 32-bit logical shifts (R143). -/
def azLit (P : Packed) : Bool :=
  let p := (prec P).toNat
  let hs := high P &&& 0x7FFFFFFF
  if p < 31 then ((high P <<< 1) >>> (p + 1)) == 0
  else if p < 63 then hs == 0 && (med P >>> (p - 31)) == 0
  else if p < 95 then hs == 0 && med P == 0 && (low P >>> (p - 63)) == 0
  else hs == 0 && med P == 0 && low P == 0

/-- The zero test of a build with the given `APZ_FORM` (R144). -/
def azForm : ApzForm → Packed → Bool
  | .mask => azMask
  | .shiftLiteral => azLit

/-- `is_approx_positive(P)` of a build (R146). -/
def isApproxPositive (form : ApzForm) (P : Packed) : Bool := isPositive P && !azForm form P

/-- `is_approx_negative(P)` of a build (R147). -/
def isApproxNegative (form : ApzForm) (P : Packed) : Bool := isNegative P && !azForm form P

/-- The class vector: `AN, AP, AZ, N, P, Z` from bit 5 down to bit 0, zero-extended (R79, R148). -/
def classVector (form : ApzForm) (P : Packed) : Packed :=
  let six : BitVec 6 :=
    BitVec.ofBool (isApproxNegative form P) ++ BitVec.ofBool (isApproxPositive form P)
      ++ BitVec.ofBool (azForm form P) ++ BitVec.ofBool (isNegative P)
      ++ BitVec.ofBool (isPositive P) ++ BitVec.ofBool (isZero P)
  six.setWidth 104

/-- `ISAZ` (R145). -/
def execIsaz (opa : Packed) (s : State) : Host.Outcome State Fault Refusal :=
  .next (withValid opa (fun P => boolResult (azForm Config.apzForm P)) s)

/-- `ISAP` (R146). -/
def execIsap (opa : Packed) (s : State) : Host.Outcome State Fault Refusal :=
  .next (withValid opa (fun P => boolResult (isApproxPositive Config.apzForm P)) s)

/-- `ISAN` (R147). -/
def execIsan (opa : Packed) (s : State) : Host.Outcome State Fault Refusal :=
  .next (withValid opa (fun P => boolResult (isApproxNegative Config.apzForm P)) s)

/-- `CLASS` (R148). -/
def execClassify (opa : Packed) (s : State) : Host.Outcome State Fault Refusal :=
  .next (withValid opa (classVector Config.apzForm) s)

end Sys2Proof.Machine
end

