-- ==== Sys2Proof/Machine/Construct.lean ====
section
/-! DEFINITION. Validation, construction and the constants (40_construction.md). -/

namespace Sys2Proof.Machine

/-- `NEW`: the operand verbatim, all 104 bits (R104, R105). -/
def execNew (opa : Packed) (s : State) : Host.Outcome State Fault Refusal :=
  .next (withValid opa (fun P => P) s)

/-- `VALIDATE`: validity as data; it never fails (R106). -/
def execValidate (opa : Packed) (s : State) : Host.Outcome State Fault Refusal :=
  .next (succeed (boolResult (valid opa)) s)

/-- `CMAX` (R108). -/
def execCmax (s : State) : Host.Outcome State Fault Refusal := .next (succeed maxWord s)

/-- `CMIN` (R109). -/
def execCmin (s : State) : Host.Outcome State Fault Refusal := .next (succeed minWord s)

/-- `CZERO` (R110). -/
def execCzero (s : State) : Host.Outcome State Fault Refusal := .next (succeed zeroWord s)

end Sys2Proof.Machine
end

