-- ==== Sys2Proof/Machine/Convert.lean ====
section
/-! DEFINITION. String conversion (44_string.md). -/

namespace Sys2Proof.Machine

/-- `TOSTR`: it always fails with `UNSUPPORTED`, its operand not validated (R170, R184). -/
def execTostr (s : State) : Host.Outcome State Fault Refusal := .next (raiseError .unsupported s)

end Sys2Proof.Machine
end

