-- ==== Sys2Proof/Machine/Unsign.lean ====
section
/-! DEFINITION. The sign-clearing helper (41_unsign.md). -/

namespace Sys2Proof.Machine

/-- `{prec(P), 1'b0, high(P)[30:0], med(P), low(P)}` (R120). -/
def unsignWord (P : Packed) : Packed :=
  prec P ++ (0#1 ++ (high P).extractLsb' 0 31) ++ med P ++ low P

/-- `UNSIGN` (R120). -/
def execUnsign (opa : Packed) (s : State) : Host.Outcome State Fault Refusal :=
  .next (withValid opa unsignWord s)

end Sys2Proof.Machine
end

