-- ==== Sys2Proof/Machine/Dispatch.lean ====
section
/-! DEFINITION. One arm per command (30_encoding.md R80). -/

namespace Sys2Proof.Machine

def exec (i : Instr) (s : State) : Host.Outcome State Fault Refusal :=
  match i with
  | .new opa => Sys2Proof.Machine.execNew opa s
  | .validate opa => Sys2Proof.Machine.execValidate opa s
  | .unsign opa => Sys2Proof.Machine.execUnsign opa s
  | .isz opa => Sys2Proof.Machine.execIsz opa s
  | .isp opa => Sys2Proof.Machine.execIsp opa s
  | .isn opa => Sys2Proof.Machine.execIsn opa s
  | .isaz opa => Sys2Proof.Machine.execIsaz opa s
  | .isap opa => Sys2Proof.Machine.execIsap opa s
  | .isan opa => Sys2Proof.Machine.execIsan opa s
  | .classify opa => Sys2Proof.Machine.execClassify opa s
  | .cmax => Sys2Proof.Machine.execCmax s
  | .cmin => Sys2Proof.Machine.execCmin s
  | .czero => Sys2Proof.Machine.execCzero s
  | .tostr => Sys2Proof.Machine.execTostr s

end Sys2Proof.Machine
end

