-- ==== Sys2Proof/Machine/Step.lean ====
section
/-! DEFINITION. One step: the next thing the host does (20_memory.md R59; 70_reset_and_hazards.md R211 to
R213, R221). On an edge it is one rising edge of `CLK`. -/

namespace Sys2Proof.Machine

/-- One step. The host's list has moved on in every state it answers. -/
def step (s : State) : Host.Outcome State Fault Refusal :=
  match nextKind s with
  | .resetEdge => .next (resetRegs (advance s))
  | .idleEdge => .next (advance s)
  | .acceptEdge c =>
    match decode c with
    | .ok i => exec i (advance s)
    | .error e => .next (rejectCommand e (advance s))
  | .undefinedEdge => .refused .undefinedInput
  | .resultRead => afterRead (advance s) (readResult s)
  | .statusRead => afterRead (advance s) (readStatus s)

/-- `s` with the host about to present, at the next edge, the command whose table bits are `w`: a program
comes to the block only through the host (log entry 9). -/
def State.withFetchWord (s : State) (nbits w : Nat) : State :=
  { s with host := present (tableWord nbits w) :: s.host }

end Sys2Proof.Machine
end

