-- ==== Sys2Proof/Machine/Adaptor.lean ====
section
/-! DEFINITION. How a host adaptor carries a command or a result over a narrower channel (20_memory.md
R55): by bytes or by words of any width, in one order. The bytes of a command stand in Decode.lean. -/

namespace Sys2Proof.Machine

/-- How many words of `w` bits carry `bits` bits. -/
def wordCount (bits w : Nat) : Nat := (bits + w - 1) / w

/-- A command on a channel of `w`-bit words: word `j` is `CMD[wj+w-1 : wj]`, word 0 first (R55). Bits that
the last word has above bit 111 are 0 (log entries 5 and 17). -/
def commandWords (w : Nat) (c : Command) : List (BitVec w) := toWordsLE w (wordCount 112 w) c.toNat

/-- The command that words of `w` bits carry: the whole word or none (R55, R57). Bits above bit 111 are not
part of it (log entry 17). -/
def commandOfWords (w : Nat) (ws : List (BitVec w)) : Option Command :=
  if ws.length = wordCount 112 w then some (BitVec.ofNat 112 (ofWordsLE w ws)) else none

/-- A result on a channel of `w`-bit words, in the order of a command (R55). Bits that the last word has above
bit 103 are 0 (log entry 17). -/
def resultWords (w : Nat) (v : Packed) : List (BitVec w) := toWordsLE w (wordCount 104 w) v.toNat

/-- The result that words of `w` bits carry (R55). Bits above bit 103 are not part of it (log entry 17). -/
def resultOfWords (w : Nat) (ws : List (BitVec w)) : Option Packed :=
  if ws.length = wordCount 104 w then some (BitVec.ofNat 104 (ofWordsLE w ws)) else none

/-- The 13 bytes of a result (R55). -/
def resultBytes (v : Packed) : List Byte := resultWords 8 v

/-- The result that 13 bytes carry (R55). -/
def resultOfBytes (bs : List Byte) : Option Packed := resultOfWords 8 bs

end Sys2Proof.Machine
end

