-- ==== Sys2Proof/Machine/Assembler.lean ====
section
/-! DEFINITION. The assembler of 30_encoding.md R85 and R86, a host tool: from source text to the command
words that the host presents, one a line, at consecutive accept edges (spec/95, Part 3). -/

namespace Sys2Proof.Machine

/-- White space inside a line (log entry 6). -/
def isBlank (c : Char) : Bool := c == ' ' || c == '\t' || c == '\r'

/-- A word without the white space around it. -/
def trim (cs : List Char) : List Char := ((cs.dropWhile isBlank).reverse.dropWhile isBlank).reverse

/-- A text cut at every `sep`; a text without `sep` is one piece. -/
def pieces (sep : Char) : List Char → List (List Char)
  | [] => [[]]
  | c :: cs =>
    if c == sep then [] :: pieces sep cs
    else
      match pieces sep cs with
      | p :: ps => (c :: p) :: ps
      | [] => [[c]]

/-- A digit of the base (R85). -/
def digitOf (base : Nat) (c : Char) : Option Nat :=
  let n := c.toNat
  let d := if 48 ≤ n ∧ n ≤ 57 then n - 48 else if 65 ≤ n ∧ n ≤ 70 then n - 55
    else if 97 ≤ n ∧ n ≤ 102 then n - 87 else base
  if d < base then some d else none

/-- The digits of a number, an underscore only between two digits (R85; log entry 6). -/
def digits (base acc : Nat) (afterDigit : Bool) : List Char → Option Nat
  | [] => if afterDigit then some acc else none
  | c :: cs =>
    if c == '_' then (if afterDigit then digits base acc false cs else none)
    else
      match digitOf base c with
      | some d => digits base (acc * base + d) true cs
      | none => none

/-- A decimal number, or a hexadecimal one after `0x` (R85). -/
def number : List Char → Option Nat
  | '0' :: 'x' :: cs => digits 16 0 false cs
  | cs => digits 10 0 false cs

/-- The D-format mnemonics as R80 spells them. -/
def dMnemonics : List (List Char × DMnemonic) :=
  [(['N', 'E', 'W'], .new), (['V', 'A', 'L', 'I', 'D', 'A', 'T', 'E'], .validate),
   (['U', 'N', 'S', 'I', 'G', 'N'], .unsign), (['I', 'S', 'Z'], .isz), (['I', 'S', 'P'], .isp),
   (['I', 'S', 'N'], .isn), (['I', 'S', 'A', 'Z'], .isaz), (['I', 'S', 'A', 'P'], .isap),
   (['I', 'S', 'A', 'N'], .isan), (['C', 'L', 'A', 'S', 'S'], .classify)]

/-- The N-format mnemonics as R80 spells them. -/
def nMnemonics : List (List Char × NMnemonic) :=
  [(['C', 'M', 'A', 'X'], .cmax), (['C', 'M', 'I', 'N'], .cmin), (['C', 'Z', 'E', 'R', 'O'], .czero),
   (['T', 'O', 'S', 'T', 'R'], .tostr)]

/-- The operands of a D-format line: four numbers, or `@RES` alone (R85). -/
def parseOperands (os : List (List Char)) : Except AsmError AsmOperand :=
  match os with
  | [o] => if o = ['@', 'R', 'E', 'S'] then .ok .res else .error .badOperands
  | [h, m, l, p] =>
    match number h, number m, number l, number p with
    | some h, some m, some l, some p => .ok (.fields h m l p)
    | _, _, _, _ => .error .badNumber
  | _ => .error .badOperands

/-- The command of a line whose first word is `word` and whose remaining text is `rest`. -/
def parseCommand (word rest : List Char) : Except AsmError AsmLine :=
  let os := if rest = [] then [] else (pieces ',' rest).map trim
  if word = ['.', 'c', 'm', 'd'] then
    match os with
    | [x] =>
      match number x with
      | some x => .ok (.raw x)
      | none => .error .badNumber
    | _ => .error .badOperands
  else
    match nMnemonics.lookup word, dMnemonics.lookup word with
    | some m, _ => if os = [] then .ok (.nform m) else .error .badOperands
    | none, some m =>
      match parseOperands os with
      | .ok o => .ok (.dform m o)
      | .error e => .error e
    | none, none => .error .unknownMnemonic

/-- One line of source; `;` starts a comment, and a line with nothing else holds no command (R85). -/
def parseLine (line : List Char) : Except AsmError (Option AsmLine) :=
  let code := trim (line.takeWhile (fun c => c != ';'))
  if code = [] then .ok none
  else
    match parseCommand (code.takeWhile (fun c => !isBlank c)) (trim (code.dropWhile (fun c => !isBlank c))) with
    | .ok l => .ok (some l)
    | .error e => .error e

/-- What the host drives on `CMD` for a line (R85, R86): `OPA` is `{prec, high, med, low}`, an N-format
command's is 0, `@RES` waits for `RES_O`; a number too wide for its field is an error. -/
def assembleLine (l : AsmLine) : Except AsmError CmdSource :=
  if l.wellFormed then
    match l with
    | .nform m => .ok (.word (encode m.instr))
    | .dform m (.fields h md l p) =>
      .ok (.word (encode (m.instr (pack (BitVec.ofNat 8 p) (BitVec.ofNat 32 h) (BitVec.ofNat 32 md) (BitVec.ofNat 32 l)))))
    | .dform m .res => .ok (.resOperand (m.instr 0).opcode)
    | .raw x => .ok (.word (BitVec.ofNat 112 x))
  else .error .numberTooWide

/-- The edge at which the host presents what it drives on `CMD`, with no reset (R212). -/
def acceptWith (src : CmdSource) : HostEvent :=
  .edge { rst := some false, cmdValid := some true, cmd := some src }

/-- The edges of a program's lines, in order, up to the first error. -/
def assembleLines : List (List Char) → Except AsmError (List HostEvent)
  | [] => .ok []
  | l :: ls =>
    match parseLine l, assembleLines ls with
    | .ok none, r => r
    | .ok (some a), r =>
      match assembleLine a, r with
      | .ok src, .ok es => .ok (acceptWith src :: es)
      | .error e, _ => .error e
      | .ok _, .error e => .error e
    | .error e, _ => .error e

/-- A program: one command per line (R85). -/
def assembleProgram (text : List Char) : Except AsmError (List HostEvent) :=
  assembleLines (pieces '\n' text)

end Sys2Proof.Machine
end

