-- ==== Sys2Proof/Machine/Value.lean ====
section
/-! DEFINITION. The value of a Decimal (10_state.md R32): informative, no command computes it; a host that
renders or compares values needs it (R171, 90 C2). -/

namespace Sys2Proof.Machine

/-- The value formula of R32, the words read as unsigned numbers. -/
def value (P : Packed) : Rat :=
  if (high P).getLsbD 31 then
    -(2 ^ 32 : Rat) + (high P).toNat + (med P).toNat / 2 ^ 32 + (low P).toNat / 2 ^ 64
  else (high P).toNat + (med P).toNat / 2 ^ 32 + (low P).toNat / 2 ^ 64

end Sys2Proof.Machine
end

