-- ==== Sys2Proof/Safety.lean ====
section
/-! DEFINITION. What claims speak of: the invariant of the registers, runs and their observation
(70_reset_and_hazards.md R222). -/

namespace Sys2Proof.Machine

/-- The success protocol as R182 writes it, field by field. -/
def afterSuccess (v : Packed) (s : State) : State :=
  { res := v, status := { err := 0, rv := true, ef := s.status.ef }, host := s.host }

/-- The error protocol as R183 writes it, field by field. -/
def afterError (code : BitVec 4) (s : State) : State :=
  { res := s.res, status := { err := code, rv := s.status.rv, ef := true }, host := s.host }

/-- The opcodes of the D format (R71, R80). -/
def dOpcodes : List Byte := [0x01, 0x02, 0x03, 0x10, 0x11, 0x12, 0x18, 0x19, 0x1A, 0x1F]

/-- The opcodes of the N format (R71, R80). -/
def nOpcodes : List Byte := [0x20, 0x21, 0x22, 0x30]

/-- The fourteen opcodes of R80; the others are reserved (R82). -/
def opcodes : List Byte := dOpcodes ++ nOpcodes

/-- The relations between the registers that hold in every state a run reaches: `ERR` is a defined code
(R25), a failed last command has set `EF` (R183), `RES` is 0 until a command succeeds (R23, R26), and `RES`
is a valid packed word or a vector of at most six bits (the table of R23). -/
def RegInv (s : State) : Prop :=
  s.status.err.toNat ≤ 3 ∧ (s.status.err ≠ 0 → s.status.ef = true) ∧
    (s.status.rv = false → s.res = 0) ∧ (valid s.res = true ∨ s.res.toNat < 64)

/-- An edge with all three ports at a defined level (R220). -/
def definedEdge : HostEvent → Bool
  | .edge { rst := some _, cmdValid := some _, cmd := some _ } => true
  | _ => false

/-- An edge at which `RST` is 1. -/
def resetsAt : HostEvent → Bool
  | .edge { rst := some true, .. } => true
  | _ => false

/-- An edge with `RST = 0` and `CMD_VALID = 1` (R212). -/
def acceptsAt : HostEvent → Bool
  | .edge { rst := some false, cmdValid := some true, .. } => true
  | _ => false

/-- A run is a reset edge and then accept and idle edges (R222). -/
def isRun : List HostEvent → Bool
  | [] => false
  | e :: es => definedEdge e && resetsAt e && es.all (fun e => definedEdge e && !resetsAt e)

/-- What the host sees: `(RES, ST)`. -/
def outputs (s : State) : Packed × Byte := (resO s, stO s)

/-- The observation of a run (R222). -/
structure Observation where
  /-- `(RES, ST)` after each accept edge, in order. -/
  accepts : List (Packed × Byte)
  /-- `(RES, ST)` after the last edge. -/
  last : Packed × Byte
  deriving DecidableEq, Repr

/-- What `k` steps show, or why they stop, from any state: R222 says nothing of a run without a reset edge
first, and that it is given an observation here is the MODEL'S CHOICE (DESIGN CHOICE, log entry 16). -/
def observeSteps : Nat → State → Host.Outcome Observation Fault Refusal
  | 0, s => .next { accepts := [], last := outputs s }
  | k + 1, s =>
    match step s with
    | .fault r => .fault r
    | .refused r => .refused r
    | .next t =>
      match observeSteps k t with
      | .fault r => .fault r
      | .refused r => .refused r
      | .next o =>
        match s.host with
        | e :: _ => .next (if acceptsAt e then { o with accepts := outputs t :: o.accepts } else o)
        | [] => .next o

/-- The observation of what the host's list makes the block do. It is the observation of a run (R222) where
`isRun s.host` holds. MODEL'S CHOICE (DESIGN CHOICE, log entry 16): it is defined for every state and every
list, so also where the list does not begin with a reset edge or holds host reads, of which R222 says nothing
(D31: no meaning). -/
def observe (s : State) : Host.Outcome Observation Fault Refusal := observeSteps s.host.length s

end Sys2Proof.Machine
end

