-- ==== Sys2Proof/Certificates/Slice0/Obligations.lean ====
section
/-! DEFINITION. The statements for the provers. Where a docstring gives no other source, the statement is
the rule of spec/ that it names. `afterSuccess` and `afterError` (Safety.lean) are the two protocols of
60_exceptions.md R182 and R183 written out field by field. -/

open Sys2Proof Sys2Proof.Machine

/-! ### Reset, edges and the step -/

/-- R39: every piece of state after reset, and what the two output ports then show. -/
def Obligations.ResetLeavesZero : Prop :=
  State.reset.res = 0 ∧ State.reset.status.err = 0 ∧ State.reset.status.rv = false ∧
    State.reset.status.ef = false ∧ resO State.reset = 0 ∧ stO State.reset = 0

/-- R211: a reset edge clears both registers, whatever `CMD_VALID` and `CMD` carry and whatever state the
block was in, the free values of a power-up among them. -/
def Obligations.ResetEdgeClearsRegisters : Prop :=
  ∀ (s : State) (v : Bool) (c : CmdSource) (rest : List HostEvent),
    s.host = .edge { rst := some true, cmdValid := some v, cmd := some c } :: rest →
      step s = .next { res := 0, status := { err := 0, rv := false, ef := false }, host := rest }

/-- R213: an idle edge changes neither register. -/
def Obligations.IdleEdgeKeepsRegisters : Prop :=
  ∀ (s : State) (c : CmdSource) (rest : List HostEvent),
    s.host = .edge { rst := some false, cmdValid := some false, cmd := some c } :: rest →
      step s = .next { res := s.res, status := s.status, host := rest }

/-- The model's choice (log entry 1): when the host's list is over, every further edge is idle. -/
def Obligations.EmptyHostListIdles : Prop :=
  ∀ s : State, s.host = [] → step s = .next s

/-- R212: at an accept edge the block executes the command it samples; around `exec` the step only moves
the host's list on. -/
def Obligations.StepRunsDecodedCommand : Prop :=
  ∀ (s : State) (c : Command) (i : Instr) (rest : List HostEvent),
    s.host = .edge { rst := some false, cmdValid := some true, cmd := some (.word c) } :: rest →
      decode c = .ok i → i.wellFormed = true →
        step s = exec i { res := s.res, status := s.status, host := rest }

/-- R86: `@RES` at an accept edge is the command word whose operand is the value of `RES_O` after the last
edge; no error or stop of its own (log entry 7). -/
def Obligations.AtResIsTheOutputCopied : Prop :=
  ∀ (s : State) (op : Byte) (rest : List HostEvent),
    s.host = .edge { rst := some false, cmdValid := some true, cmd := some (.resOperand op) } :: rest →
      step s = step { s with host := present (command op (resO s)) :: rest }

/-- R82, R185: there are 242 reserved opcodes; a command with one fails with `ILLEGAL_OPCODE`, whatever its
operand. -/
def Obligations.ReservedOpcodeIsIllegal : Prop :=
  ((List.range 256).filter (fun n => !opcodes.contains (BitVec.ofNat 8 n))).length = 242 ∧
    ∀ (s : State) (op : Byte) (opa : Packed) (rest : List HostEvent),
      op ∉ opcodes → s.host = present (command op opa) :: rest →
        step s = .next (afterError 3 { res := s.res, status := s.status, host := rest })

/-- R186: the order of the checks, by four clauses that exclude one another. -/
def Obligations.ChecksInOrder : Prop :=
  ∀ (s : State) (op : Byte) (opa : Packed) (rest : List HostEvent),
    s.host = present (command op opa) :: rest →
      (op ∉ opcodes →
        step s = .next (afterError 3 { res := s.res, status := s.status, host := rest })) ∧
      (op = 0x30 →
        step s = .next (afterError 2 { res := s.res, status := s.status, host := rest })) ∧
      (op ∈ dOpcodes → op ≠ 0x02 → ((prec opa).toNat = 0 ∨ 95 < (prec opa).toNat) →
        step s = .next (afterError 1 { res := s.res, status := s.status, host := rest })) ∧
      (op = 0x02 ∨ op = 0x20 ∨ op = 0x21 ∨ op = 0x22 ∨
          (op ∈ dOpcodes ∧ 1 ≤ (prec opa).toNat ∧ (prec opa).toNat ≤ 95) →
        ∃ v, step s = .next (afterSuccess v { res := s.res, status := s.status, host := rest }))

/-- R220 with 93 I2: an edge at which a port has no defined level is refused by name (log entry 2). -/
def Obligations.UndefinedInputIsRefused : Prop :=
  ∀ (s : State) (p : Pins) (rest : List HostEvent),
    s.host = .edge p :: rest → (p.rst = none ∨ p.cmdValid = none ∨ p.cmd = none) →
      step s = .refused .undefinedInput

/-- R216, R222: on an edge with defined levels no state is final or faulted: the block takes a next state and
the host's list moves on by one. -/
def Obligations.EveryDefinedEdgeIsTaken : Prop :=
  ∀ (s : State) (e : HostEvent) (rest : List HostEvent),
    s.host = e :: rest → definedEdge e = true → ∃ t, step s = .next t ∧ t.host = rest

/-- The only stops of a step: the fault of R40, and the refusals of 93 I2 and I5 (log entries 2, 3, 8). -/
def Obligations.StopsAreTheNamedOnes : Prop :=
  ∀ s : State,
    (∀ r, step s = .fault r ↔
      r = .noValue ∧ s.host.head? = some .readResult ∧ s.status.rv = false) ∧
    (∀ r, step s = .refused r ↔
      (r = .undefinedInput ∧ ∃ p, s.host.head? = some (.edge p) ∧
        (p.rst = none ∨ p.cmdValid = none ∨ p.cmd = none)) ∨
      (r = .reservedErrorCode ∧ s.host.head? = some .readStatus ∧ 4 ≤ s.status.err.toNat))

/-- R40, R58, R221: a read of the result before any success is a fault; after one it gives `RES` and changes
nothing. A read of the status gives `ST`, whatever `RV` is, and changes nothing; only a reserved `ERR` refuses
it (log entry 3). A host read is a step of its own in the model (log entry 8). -/
def Obligations.ResultReadNeedsASuccess : Prop :=
  (∀ (s : State) (rest : List HostEvent), s.host = .readResult :: rest →
    (s.status.rv = false → step s = .fault .noValue) ∧
    (s.status.rv = true → readResult s = .next (resO s) ∧ resO s = s.res ∧
      step s = .next { res := s.res, status := s.status, host := rest })) ∧
  (∀ (s : State) (rest : List HostEvent), s.host = .readStatus :: rest →
    (s.status.err.toNat ≤ 3 → readStatus s = .next (stO s) ∧
      step s = .next { res := s.res, status := s.status, host := rest }) ∧
    (4 ≤ s.status.err.toNat → step s = .refused .reservedErrorCode))

/-- R216, R222: a list of edges with defined levels is observed to its end. `u k` is the state after the
first `k` edges; the pairs are the outputs after each accept edge, in order, and the last pair that of the state
after all edges. The observation is given for every state, a reset edge first or not (log entry 16). -/
def Obligations.ObservationHasEveryAccept : Prop :=
  ∀ s : State, s.host.all definedEdge = true →
    ∃ (o : Observation) (u : Nat → State), observe s = .next o ∧
      (∀ k ≤ s.host.length, Host.Core.run Sys2Proof.core k s = .next (u k)) ∧
      o.accepts = ((List.range s.host.length).filter (fun k => (s.host[k]?).any acceptsAt)).map
        (fun k => (resO (u (k + 1)), stO (u (k + 1)))) ∧
      o.accepts.length = s.host.countP acceptsAt ∧
      o.last = (resO (u s.host.length), stO (u s.host.length)) ∧ (u s.host.length).host = []

/-! ### Encoding and the packed word -/

/-- R80, R82, R87: every word is the command whose `OP` it carries, or a reserved opcode; at an accept edge
both go on. -/
def Obligations.DecodingIsTotal : Prop :=
  (∀ c : Command, opField c ∈ opcodes → ∃ i, decode c = .ok i ∧ i.opcode = opField c) ∧
    (∀ c : Command, opField c ∉ opcodes → decode c = .error (.reservedOpcode (opField c))) ∧
    (∀ (s : State) (c : Command) (rest : List HostEvent), s.host = present c :: rest →
      ∃ t, step s = .next t)

/-- R70, R80: decoding an encoded well-formed command gives it back, whatever its operand. -/
def Obligations.DecodeOfEncode : Prop :=
  ∀ i : Instr, i.wellFormed = true → decode (encode i) = .ok i

/-- R70 to R72, R80: encoding a decoded command gives the word back in the D format, and the word with a zero
operand in the N format. -/
def Obligations.EncodeOfDecode : Prop :=
  ∀ (c : Command) (i : Instr), decode c = .ok i →
    (i.isD = true → encode i = c) ∧ (i.isD = false → encode i = command (opField c) 0)

/-- Words written out from R70, R73 and R80 decode to the commands they stand for. -/
def Obligations.WrittenWordsDecode : Prop :=
  decode 0x01_0A_00000001_00000000_00000000 = .ok (.new 0x0A_00000001_00000000_00000000) ∧
    decode 0x03_2F_80000001_00000002_00000003 = .ok (.unsign 0x2F_80000001_00000002_00000003) ∧
    decode 0x12_5F_80000000_00000000_00000000 = .ok (.isn 0x5F_80000000_00000000_00000000) ∧
    decode 0x1A_5F_80000000_00000000_00000000 = .ok (.isan 0x5F_80000000_00000000_00000000) ∧
    decode 0x20_00_FFFFFFFF_FFFFFFFF_FFFFFFFF = .ok .cmax ∧
    decode 0x30_00_00000000_00000000_00000000 = .ok .tostr ∧
    decode 0x1B_00_00000000_00000000_00000000 = .error (.reservedOpcode 0x1B)

/-- R72: an N-format command has the same effect for every operand field, and an assembler emits zeros. -/
def Obligations.NFormatIgnoresOperand : Prop :=
  (∀ op ∈ nOpcodes, ∀ (s : State) (a b : Packed) (rest : List HostEvent),
    step { s with host := present (command op a) :: rest } =
      step { s with host := present (command op b) :: rest }) ∧
    (∀ i : Instr, i.isD = false → i.opcode ∈ nOpcodes ∧ opaField (encode i) = 0)

/-- R75, R76: the field extractors, as numbers. -/
def Obligations.FieldExtractors : Prop :=
  ∀ P : Packed,
    (high P).toNat = P.toNat / 2 ^ 64 % 2 ^ 32 ∧ (med P).toNat = P.toNat / 2 ^ 32 % 2 ^ 32 ∧
    (low P).toNat = P.toNat % 2 ^ 32 ∧ (prec P).toNat = P.toNat / 2 ^ 96 ∧
    sign P = (high P).getLsbD 31 ∧ sign P = P.getLsbD 95 ∧
    (mag P).toNat = P.toNat % 2 ^ 95 ∧
    (mag P).toNat = (high P).toNat % 2 ^ 31 * 2 ^ 64 + (med P).toNat * 2 ^ 32 + (low P).toNat ∧
    (field P).toNat = P.toNat % 2 ^ 96 ∧
    (field P).toNat = (high P).toNat * 2 ^ 64 + (med P).toNat * 2 ^ 32 + (low P).toNat ∧
    (∀ i < 95, (mag P).getLsbD i = P.getLsbD i) ∧ (mag P).getLsbD 94 = (high P).getLsbD 30

/-- R73: the packed word `{PREC, HIGH, MED, LOW}` holds its four fields and nothing else. -/
def Obligations.PackedLayout : Prop :=
  (∀ (p : Byte) (h m l : Word),
    (pack p h m l).toNat = p.toNat * 2 ^ 96 + h.toNat * 2 ^ 64 + m.toNat * 2 ^ 32 + l.toNat ∧
    prec (pack p h m l) = p ∧ high (pack p h m l) = h ∧ med (pack p h m l) = m ∧ low (pack p h m l) = l) ∧
    (∀ P : Packed, pack (prec P) (high P) (med P) (low P) = P)

/-- R100: validity is the range of the precision, and the words never matter. -/
def Obligations.ValidityIsThePrecisionRange : Prop :=
  (∀ P : Packed, valid P = true ↔ 1 ≤ P.toNat / 2 ^ 96 ∧ P.toNat / 2 ^ 96 ≤ 95) ∧
    (∀ P Q : Packed, prec P = prec Q → valid P = valid Q)

/-! ### Validation, construction, constants, conversion -/

/-- R105: `NEW` succeeds and returns its operand for a precision in [1, 95], and fails for every other. -/
def Obligations.NewReturnsItsOperand : Prop :=
  ∀ (s : State) (p : Byte) (h m l : Word),
    (1 ≤ p.toNat ∧ p.toNat ≤ 95 →
      exec (.new (p ++ h ++ m ++ l)) s = .next (afterSuccess (p ++ h ++ m ++ l) s)) ∧
    (p.toNat = 0 ∨ 96 ≤ p.toNat →
      exec (.new (p ++ h ++ m ++ l)) s = .next (afterError 1 s))

/-- R106: `VALIDATE` reports validity as data and never fails. -/
def Obligations.ValidateReportsValidity : Prop :=
  ∀ (s : State) (P : Packed),
    decode (command 0x02 P) = .ok (.validate P) ∧
    exec (.validate P) s =
      .next (afterSuccess (if 1 ≤ (prec P).toNat ∧ (prec P).toNat ≤ 95 then 1 else 0) s) ∧
    exec (.validate 0x60_00000000_00000000_00000000) s = .next (afterSuccess 0 s)

/-- R107: `VALIDATE` returns 1 exactly when `NEW` would succeed. -/
def Obligations.ValidateForetellsNew : Prop :=
  ∀ (s : State) (P : Packed),
    (∃ t, exec (.validate P) s = .next t ∧ t.res = 1) ↔ ∃ v, exec (.new P) s = .next (afterSuccess v s)

/-- R108, R109, R110: the constants, whatever the operand field holds. -/
def Obligations.ConstantCommands : Prop :=
  ∀ s : State,
    (∀ opa, decode (command 0x20 opa) = .ok .cmax) ∧
    exec .cmax s = .next (afterSuccess 0x5F_7FFFFFFF_FFFFFFFF_FFFFFFFF s) ∧
    (∀ opa, decode (command 0x21 opa) = .ok .cmin) ∧
    exec .cmin s = .next (afterSuccess 0x5F_FFFFFFFF_FFFFFFFF_FFFFFFFF s) ∧
    (∀ opa, decode (command 0x22 opa) = .ok .czero) ∧
    exec .czero s = .next (afterSuccess 0x5F_00000000_00000000_00000000 s)

/-- R111: each constant is a valid packed word that `NEW` returns unchanged. -/
def Obligations.ConstantsAreConstructible : Prop :=
  ∀ (s : State) (i : Instr), (i = .cmax ∨ i = .cmin ∨ i = .czero) →
    ∃ c, exec i s = .next (afterSuccess c s) ∧ (prec c).toNat = 95 ∧ valid c = true ∧
      exec (.new c) s = .next (afterSuccess c s)

/-- R170: `TOSTR` always fails with `UNSUPPORTED`, whatever its operand field holds. -/
def Obligations.TostrIsUnsupported : Prop :=
  ∀ s : State, (∀ opa, decode (command 0x30 opa) = .ok .tostr) ∧
    exec .tostr s = .next (afterError 2 s) ∧
    (∀ t, exec .czero State.reset = .next t →
      ∃ u, exec .tostr t = .next u ∧ resO u = 0x5F_00000000_00000000_00000000 ∧ stO u = 0x32)

/-- R120: `UNSIGN` clears bit 95 of a valid operand and keeps every other bit. -/
def Obligations.UnsignClearsTheSign : Prop :=
  ∀ (s : State) (P : Packed),
    decode (command 0x03 P) = .ok (.unsign P) ∧
    (1 ≤ (prec P).toNat ∧ (prec P).toNat ≤ 95 →
      exec (.unsign P) s = .next (afterSuccess (P &&& ~~~(1#104 <<< 95)) s)) ∧
    ((prec P).toNat = 0 ∨ 95 < (prec P).toNat → exec (.unsign P) s = .next (afterError 1 s)) ∧
    exec (.unsign minWord) s = .next (afterSuccess maxWord s) ∧
    exec (.unsign 0x5F_FFFFFFFF_00000000_00000000) s =
      .next (afterSuccess 0x5F_7FFFFFFF_00000000_00000000 s)

/-- R122: the laws of `UNSIGN` on a valid operand. -/
def Obligations.UnsignLaws : Prop :=
  ∀ (s : State) (P : Packed), valid P = true →
    ∃ Q, exec (.unsign P) s = .next (afterSuccess Q s) ∧
      mag Q = mag P ∧ prec Q = prec P ∧ sign Q = false ∧
      exec (.unsign Q) s = .next (afterSuccess Q s) ∧
      exec (.isz Q) s = .next (afterSuccess (if mag P = 0 then 1 else 0) s)

/-! ### Exact predicates -/

/-- R131: `ISZ` is 1 exactly where the 96-bit field is 0. -/
def Obligations.IszTestsTheWholeField : Prop :=
  ∀ (s : State) (P : Packed),
    decode (command 0x10 P) = .ok (.isz P) ∧
    (1 ≤ (prec P).toNat ∧ (prec P).toNat ≤ 95 →
      exec (.isz P) s = .next (afterSuccess (if P.toNat % 2 ^ 96 = 0 then 1 else 0) s)) ∧
    ((prec P).toNat = 0 ∨ 95 < (prec P).toNat → exec (.isz P) s = .next (afterError 1 s))

/-- R132: `ISP` is 1 exactly where the sign bit is 0 and the field is not 0. -/
def Obligations.IspTestsSignAndField : Prop :=
  ∀ (s : State) (P : Packed),
    decode (command 0x11 P) = .ok (.isp P) ∧
    (1 ≤ (prec P).toNat ∧ (prec P).toNat ≤ 95 →
      exec (.isp P) s =
        .next (afterSuccess (if P.toNat % 2 ^ 96 < 2 ^ 95 ∧ P.toNat % 2 ^ 96 ≠ 0 then 1 else 0) s)) ∧
    ((prec P).toNat = 0 ∨ 95 < (prec P).toNat → exec (.isp P) s = .next (afterError 1 s))

/-- R133, R134: `ISN` is 1 exactly where the sign bit is 1, a zero magnitude included; there `ISP` and `ISZ`
are 0. -/
def Obligations.IsnTestsTheSignAlone : Prop :=
  ∀ (s : State) (P : Packed),
    decode (command 0x12 P) = .ok (.isn P) ∧
    (1 ≤ (prec P).toNat ∧ (prec P).toNat ≤ 95 →
      exec (.isn P) s = .next (afterSuccess (if 2 ^ 95 ≤ P.toNat % 2 ^ 96 then 1 else 0) s)) ∧
    ((prec P).toNat = 0 ∨ 95 < (prec P).toNat → exec (.isn P) s = .next (afterError 1 s)) ∧
    (valid P = true → sign P = true → mag P = 0 →
      exec (.isn P) s = .next (afterSuccess 1 s) ∧ exec (.isp P) s = .next (afterSuccess 0 s) ∧
      exec (.isz P) s = .next (afterSuccess 0 s))

/-- R135: exactly one of zero, positive and negative holds. -/
def Obligations.ExactTrichotomy : Prop :=
  ∀ P : Packed, valid P = true →
    ((isZero P = true ∧ isPositive P = false ∧ isNegative P = false) ∨
      (isZero P = false ∧ isPositive P = true ∧ isNegative P = false) ∨
      (isZero P = false ∧ isPositive P = false ∧ isNegative P = true)) ∧
    (isNegative P = true → 2 ^ 31 ≤ (high P).toNat ∧ isZero P = false) ∧
    (isZero P = true → sign P = false) ∧
    (sign P = false → isPositive P = !isZero P)

/-- R136: on valid operands with the same field the exact predicates return the same result. -/
def Obligations.ExactPredicatesIgnorePrecision : Prop :=
  ∀ (s : State) (P Q : Packed), valid P = true → valid Q = true → field P = field Q →
    ∃ z p n : Packed,
      exec (.isz P) s = .next (afterSuccess z s) ∧ exec (.isz Q) s = .next (afterSuccess z s) ∧
      exec (.isp P) s = .next (afterSuccess p s) ∧ exec (.isp Q) s = .next (afterSuccess p s) ∧
      exec (.isn P) s = .next (afterSuccess n s) ∧ exec (.isn Q) s = .next (afterSuccess n s)

/-! ### Precision-aware predicates -/

/-- R141: the window mask is exact, with ones at bits 94 down to `95 - p` and nowhere else. -/
def Obligations.WindowMaskIsExact : Prop :=
  (∀ p : Nat, 1 ≤ p → p ≤ 95 →
    (wmask p).toNat = (2 ^ p - 1) * 2 ^ (95 - p) ∧
    ∀ i < 95, (wmask p).getLsbD i = decide (95 - p ≤ i)) ∧
    wmask 1 = 0x4000_0000_0000_0000_0000_0000#95 ∧ (wmask 95).toNat = 2 ^ 95 - 1

/-- R142, R144: the zero test of this hardware is the masked comparison, which equals the shifted one and the
four bands word by word. -/
def Obligations.MaskTestEqualsTheBands : Prop :=
  ∀ P : Packed, valid P = true →
    azForm Config.apzForm P = ((mag P &&& wmask (prec P).toNat) == 0) ∧
    azForm Config.apzForm P = ((mag P >>> (95 - (prec P).toNat)) == 0) ∧
    azForm Config.apzForm P = azBands P

/-- R143: the literal formulas in closed form; they agree with the mask at 47, 79 and 95 only. -/
def Obligations.LiteralTestClosedForm : Prop :=
  (∀ P : Packed, valid P = true →
    azLit P = (slice (mag P).toNat 94
      (if (prec P).toNat ≤ 30 then 64 + (prec P).toNat
        else if (prec P).toNat ≤ 62 then (prec P).toNat + 1
        else if (prec P).toNat ≤ 94 then (prec P).toNat - 63 else 0) == 0)) ∧
    (∀ p : Byte, 1 ≤ p.toNat → p.toNat ≤ 95 →
      ((∀ P : Packed, prec P = p → azLit P = azMask P) ↔ (p = 47 ∨ p = 79 ∨ p = 95)))

/-- R145: `ISAZ` is 1 exactly where the window, the top `prec` magnitude bits, is 0. -/
def Obligations.IsazTestsTheWindow : Prop :=
  ∀ (s : State) (P : Packed),
    decode (command 0x18 P) = .ok (.isaz P) ∧
    (1 ≤ (prec P).toNat ∧ (prec P).toNat ≤ 95 →
      exec (.isaz P) s =
        .next (afterSuccess (if P.toNat % 2 ^ 95 / 2 ^ (95 - (prec P).toNat) = 0 then 1 else 0) s)) ∧
    ((prec P).toNat = 0 ∨ 95 < (prec P).toNat → exec (.isaz P) s = .next (afterError 1 s))

/-- R146: `ISAP` is 1 exactly where the operand is positive and its window is not 0. -/
def Obligations.IsapTestsSignAndWindow : Prop :=
  ∀ (s : State) (P : Packed),
    decode (command 0x19 P) = .ok (.isap P) ∧
    (1 ≤ (prec P).toNat ∧ (prec P).toNat ≤ 95 →
      exec (.isap P) s =
        .next (afterSuccess
          (if (P.toNat % 2 ^ 96 < 2 ^ 95 ∧ P.toNat % 2 ^ 96 ≠ 0) ∧
              P.toNat % 2 ^ 95 / 2 ^ (95 - (prec P).toNat) ≠ 0 then 1 else 0) s)) ∧
    ((prec P).toNat = 0 ∨ 95 < (prec P).toNat → exec (.isap P) s = .next (afterError 1 s))

/-- R147: `ISAN` is 1 exactly where the operand is negative and its window is not 0. -/
def Obligations.IsanTestsSignAndWindow : Prop :=
  ∀ (s : State) (P : Packed),
    decode (command 0x1A P) = .ok (.isan P) ∧
    (1 ≤ (prec P).toNat ∧ (prec P).toNat ≤ 95 →
      exec (.isan P) s =
        .next (afterSuccess
          (if 2 ^ 95 ≤ P.toNat % 2 ^ 96 ∧
              P.toNat % 2 ^ 95 / 2 ^ (95 - (prec P).toNat) ≠ 0 then 1 else 0) s)) ∧
    ((prec P).toNat = 0 ∨ 95 < (prec P).toNat → exec (.isan P) s = .next (afterError 1 s))

/-- R79, R148: the class vector, bit by bit, on a valid operand; an invalid one fails. -/
def Obligations.ClassVectorLayout : Prop :=
  ∀ (s : State) (P : Packed),
    decode (command 0x1F P) = .ok (.classify P) ∧
    (1 ≤ (prec P).toNat ∧ (prec P).toNat ≤ 95 →
      ∃ v : Packed, exec (.classify P) s = .next (afterSuccess v s) ∧
        v.getLsbD 0 = isZero P ∧ v.getLsbD 1 = isPositive P ∧ v.getLsbD 2 = isNegative P ∧
        v.getLsbD 3 = azMask P ∧ v.getLsbD 4 = (isPositive P && !azMask P) ∧
        v.getLsbD 5 = (isNegative P && !azMask P) ∧ ∀ k, 6 ≤ k → v.getLsbD k = false) ∧
    ((prec P).toNat = 0 ∨ 95 < (prec P).toNat → exec (.classify P) s = .next (afterError 1 s)) ∧
    exec (.classify 0x0A_00000001_00000000_00000000) s = .next (afterSuccess 0x0A s)

/-- R148: each bit of the class vector is the result of the single command for it on the same operand. -/
def Obligations.ClassAgreesWithSingleCommands : Prop :=
  ∀ (s : State) (P : Packed), valid P = true →
    ∃ z p n az ap an : Packed,
      exec (.isz P) s = .next (afterSuccess z s) ∧ exec (.isp P) s = .next (afterSuccess p s) ∧
      exec (.isn P) s = .next (afterSuccess n s) ∧ exec (.isaz P) s = .next (afterSuccess az s) ∧
      exec (.isap P) s = .next (afterSuccess ap s) ∧ exec (.isan P) s = .next (afterSuccess an s) ∧
      exec (.classify P) s =
        .next (afterSuccess (32 * an + 16 * ap + 8 * az + 4 * n + 2 * p + z) s)

/-- R149: for both forms, exactly one of the three approximate verdicts holds. -/
def Obligations.ApproximateTrichotomy : Prop :=
  ∀ (form : ApzForm) (P : Packed), valid P = true →
    ((azForm form P = true ∧ isApproxPositive form P = false ∧ isApproxNegative form P = false) ∨
      (azForm form P = false ∧ isApproxPositive form P = true ∧ isApproxNegative form P = false) ∨
      (azForm form P = false ∧ isApproxPositive form P = false ∧ isApproxNegative form P = true)) ∧
    (azForm form P = false → mag P ≠ 0 ∧ isZero P = false) ∧
    (azForm form P = false → sign P = false → isApproxPositive form P = true) ∧
    (azForm form P = false → sign P = true → isApproxNegative form P = true)

/-- R150: at precision 95 both forms test the whole magnitude, as `is_zero` of `UNSIGN` does. -/
def Obligations.FullPrecisionTestsTheMagnitude : Prop :=
  ∀ (form : ApzForm) (P : Packed), (prec P).toNat = 95 →
    azForm form P = (mag P == 0) ∧ azForm form P = isZero (unsignWord P)

/-- R151: at precision 1 the mask form tests one bit; the literal form tests `high(P)[30:1]` and fails the
property. -/
def Obligations.PrecisionOneTestsOneBit : Prop :=
  (∀ P : Packed, (prec P).toNat = 1 → azMask P = !(high P).getLsbD 30) ∧
    (∀ P : Packed, (prec P).toNat = 1 → azLit P = (slice (high P).toNat 30 1 == 0)) ∧
    ∃ P : Packed, (prec P).toNat = 1 ∧ (high P).getLsbD 30 = false ∧ azLit P = false

/-- R152: under the mask form padding is irrelevant, the test is monotone in the precision, and the exact test
implies it; the literal form is not monotone. -/
def Obligations.WindowLaws : Prop :=
  (∀ (s : State) (P Q : Packed), valid P = true → prec P = prec Q → sign P = sign Q →
    (∀ i, 95 - (prec P).toNat ≤ i → i < 95 → (mag P).getLsbD i = (mag Q).getLsbD i) →
      exec (.isaz P) s = exec (.isaz Q) s ∧ exec (.isap P) s = exec (.isap Q) s ∧
        exec (.isan P) s = exec (.isan Q) s) ∧
    (∀ P Q : Packed, valid P = true → valid Q = true → field P = field Q →
      (prec P).toNat ≤ (prec Q).toNat → azMask Q = true → azMask P = true) ∧
    (∀ P : Packed, valid P = true → isZero P = true → azMask P = true) ∧
    (∃ P Q : Packed, field P = field Q ∧ (prec P).toNat = 1 ∧ (prec Q).toNat = 30 ∧
      azLit Q = true ∧ azLit P = false)

/-! ### All commands -/

/-- R182, R183, R187: every command ends by one protocol, with one code; what the protocol does not write stays:
the frame of all fourteen commands. The two codes an accepted command of the table reports are 1 and 2. -/
def Obligations.CommandsSucceedOrFail : Prop :=
  ∀ (i : Instr) (s : State),
    (∃ v, exec i s = .next (afterSuccess v s)) ∨ exec i s = .next (afterError 1 s) ∨
      exec i s = .next (afterError 2 s)

/-- R23, R78, R79: what `RES` holds after a success, by the command that wrote it. -/
def Obligations.ResultShapes : Prop :=
  ∀ (i : Instr) (s : State) (v : Packed), exec i s = .next (afterSuccess v s) →
    match i with
    | .new _ | .unsign _ | .cmax | .cmin | .czero => 1 ≤ (prec v).toNat ∧ (prec v).toNat ≤ 95
    | .validate _ | .isz _ | .isp _ | .isn _ | .isaz _ | .isap _ | .isan _ => v = 0 ∨ v = 1
    | .classify _ => v.toNat < 64
    | .tostr => False

/-- R58: executing the same command again changes nothing more. -/
def Obligations.RepeatingACommandChangesNothing : Prop :=
  ∀ (i : Instr) (s t : State), exec i s = .next t → exec i t = .next t

/-- R214: what a command writes does not depend on the registers it finds. -/
def Obligations.WritesDoNotDependOnRegisters : Prop :=
  ∀ (i : Instr) (s t : State),
    (∃ v, exec i s = .next (afterSuccess v s) ∧ exec i t = .next (afterSuccess v t)) ∨
      ∃ c, exec i s = .next (afterError c s) ∧ exec i t = .next (afterError c t)

/-- R26: `RV` is 0 after reset, is set by a success, and stays set until the next reset edge, through any
number of steps; while it is 0 after a reset, `RES` is still what reset wrote. -/
def Obligations.RvStaysUntilReset : Prop :=
  State.reset.status.rv = false ∧
    (∀ (i : Instr) (s t : State), exec i s = .next t → t.status.err = 0 → t.status.rv = true) ∧
    (∀ (k : Nat) (s t : State), s.status.rv = true → (∀ e ∈ s.host.take k, resetsAt e = false) →
      Host.Core.run Sys2Proof.core k s = .next t → t.status.rv = true) ∧
    (∀ (k : Nat) (es : List HostEvent) (t : State),
      Host.Core.run Sys2Proof.core k { State.reset with host := es } = .next t →
        t.status.rv = false → t.res = 0)

/-- R27: `EF` is 0 after reset, is set by a failure, and only a reset edge clears it. -/
def Obligations.EfStaysUntilReset : Prop :=
  State.reset.status.ef = false ∧
    (∀ (i : Instr) (s t : State), exec i s = .next t → t.status.err ≠ 0 → t.status.ef = true) ∧
    (∀ (k : Nat) (s t : State), s.status.ef = true → (∀ e ∈ s.host.take k, resetsAt e = false) →
      Host.Core.run Sys2Proof.core k s = .next t → t.status.ef = true)

/-- R23, R25, R26, R183: the invariant of the registers (Safety.lean) is kept by every step, whatever the
host does. -/
def Obligations.StepKeepsInv : Prop :=
  ∀ s t : State, RegInv s → step s = .next t → RegInv t

/-- R39: the invariant holds after reset. -/
def Obligations.ResetMeetsInv : Prop := RegInv State.reset

/-- R24, R28: `ST` as the host reads it, and its reserved bits, which read 0 at all times. -/
def Obligations.StatusLayout : Prop :=
  ∀ s : State,
    (stO s).extractLsb' 0 4 = s.status.err ∧ (stO s).getLsbD 4 = s.status.rv ∧
      (stO s).getLsbD 5 = s.status.ef ∧ (stO s).extractLsb' 6 2 = 0

/-! ### Values, serialisation, assembler -/

/-- R32: the value of a Decimal is its 96-bit field in two's complement times `2^-64`. -/
def Obligations.ValueIsScaledTwosComplement : Prop :=
  ∀ P : Packed, value P = ((field P).toInt : Rat) / 2 ^ 64

/-- R35, R36 with 90 C2: `MAX` is the largest value; the value of `MIN` is `-2^-64` and is not the smallest. -/
def Obligations.ValuesOfTheConstants : Prop :=
  (∀ P : Packed, value P ≤ value maxWord) ∧ value maxWord = 2 ^ 31 - 1 / 2 ^ 64 ∧
    value minWord = -(1 / 2 ^ 64) ∧ ∃ P, valid P = true ∧ value P < value minWord

/-- R55: bytes in little-endian order carry a command in 14 bytes and a result in 13, nothing lost. The same
order holds for words of every width: word `j` of a command or a result is its bits `wj+w-1 : wj`, and reading
the words back gives it. By 32-bit words a command is `LOW`, `MED`, `HIGH` and a fourth word that the model
takes as the formula gives it, `OP` and `PREC` below 16 zero bits (the model's reading, log entry 5). That
the last word's surplus bits are 0 is the model's choice (log entry 17). -/
def Obligations.ByteChannelCarriesWords : Prop :=
  (∀ c : Command, (commandBytes c).length = 14 ∧ commandOfBytes (commandBytes c) = .ok c ∧
    ∀ k < 14, (commandBytes c)[k]? = some (BitVec.ofNat 8 (c.toNat / 2 ^ (8 * k)))) ∧
    (∀ v : Packed, (resultBytes v).length = 13 ∧ resultOfBytes (resultBytes v) = some v ∧
      ∀ k < 13, (resultBytes v)[k]? = some (BitVec.ofNat 8 (v.toNat / 2 ^ (8 * k)))) ∧
    (∀ (w : Nat) (c : Command), 0 < w →
      (commandWords w c).length = (112 + w - 1) / w ∧ commandOfWords w (commandWords w c) = some c ∧
      ∀ j < (112 + w - 1) / w, (commandWords w c)[j]? = some (BitVec.ofNat w (c.toNat / 2 ^ (w * j)))) ∧
    (∀ (w : Nat) (v : Packed), 0 < w →
      (resultWords w v).length = (104 + w - 1) / w ∧ resultOfWords w (resultWords w v) = some v ∧
      ∀ j < (104 + w - 1) / w, (resultWords w v)[j]? = some (BitVec.ofNat w (v.toNat / 2 ^ (w * j)))) ∧
    (∀ (op p : Byte) (h m l : Word),
      commandWords 32 (command op (pack p h m l)) = [l, m, h, 0#16 ++ op ++ p] ∧
      resultWords 32 (pack p h m l) = [l, m, h, 0#24 ++ p])

/-- R80, R85, R86: what each form of line assembles to. A D-format line gives `{OP, prec, high, med, low}` and
decodes to its command where its numbers fit their fields, a `prec` outside [1, 95] included, and is an
assembly error where one does not; an N-format line gives its opcode over `OPA = 0`; `.cmd X` gives the word
`X`, or an error from `2^112` on; a D-format line with `@RES` gives its opcode over `RES_O`, and the step that
takes it runs the command on the value of `RES_O`. That it does so in every state, also while `RV` is 0
(the operand is 0 right after reset) and without the fault of R40, is the model's reading (DEDUCED, log entry 7):
R86 does not say whether `@RES` is a read of `RES` as a result. -/
def Obligations.LinesAssembleToTheirWords : Prop :=
  (∀ (m : DMnemonic) (h md l p : Nat),
    (h < 2 ^ 32 ∧ md < 2 ^ 32 ∧ l < 2 ^ 32 ∧ p < 2 ^ 8 →
      ∃ c : Command, assembleLine (.dform m (.fields h md l p)) = .ok (.word c) ∧
        c.toNat = (m.instr 0).opcode.toNat * 2 ^ 104 + p * 2 ^ 96 + h * 2 ^ 64 + md * 2 ^ 32 + l ∧
        ∃ opa, decode c = .ok (m.instr opa) ∧ opa.toNat = p * 2 ^ 96 + h * 2 ^ 64 + md * 2 ^ 32 + l) ∧
    (2 ^ 32 ≤ h ∨ 2 ^ 32 ≤ md ∨ 2 ^ 32 ≤ l ∨ 2 ^ 8 ≤ p →
      assembleLine (.dform m (.fields h md l p)) = .error .numberTooWide)) ∧
  (∀ m : NMnemonic, ∃ c : Command, assembleLine (.nform m) = .ok (.word c) ∧
    c.toNat = m.instr.opcode.toNat * 2 ^ 104 ∧ decode c = .ok m.instr) ∧
  (∀ x : Nat,
    (x < 2 ^ 112 → ∃ c : Command, assembleLine (.raw x) = .ok (.word c) ∧ c.toNat = x) ∧
    (2 ^ 112 ≤ x → assembleLine (.raw x) = .error .numberTooWide)) ∧
  (∀ m : DMnemonic, assembleLine (.dform m .res) = .ok (.resOperand (m.instr 0).opcode) ∧
    ∀ (s : State) (rest : List HostEvent),
      s.host = acceptWith (.resOperand (m.instr 0).opcode) :: rest →
        step s = exec (m.instr (resO s)) { res := s.res, status := s.status, host := rest }) ∧
  ([DMnemonic.new, .validate, .unsign, .isz, .isp, .isn, .isaz, .isap, .isan, .classify].map
    (fun m => (m.instr 0).opcode) = dOpcodes) ∧
  ([NMnemonic.cmax, .cmin, .czero, .tostr].map (fun m => m.instr.opcode) = nOpcodes)
end

