-- ==== Sys2Proof/Laws/Decode.lean ====
section
/-! SUPPORT. The two fields of a command word. -/

namespace Sys2Proof

/-- A command word as a number (R70). -/
theorem command_toNat (op : Byte) (opa : Packed) : (command op opa).toNat = op.toNat * 2 ^ 104 + opa.toNat := by
  rw [command, BitVec.toNat_append, ← Nat.shiftLeft_add_eq_or_of_lt opa.isLt, Nat.shiftLeft_eq]

theorem opField_toNat (c : Command) : (opField c).toNat = c.toNat / 2 ^ 104 := by
  have := c.isLt
  simp only [opField, BitVec.extractLsb'_toNat, Nat.shiftRight_eq_div_pow]
  omega

theorem opaField_toNat (c : Command) : (opaField c).toNat = c.toNat % 2 ^ 104 := by
  simp [opaField]

@[simp] theorem opField_command (op : Byte) (opa : Packed) : opField (command op opa) = op := by
  apply BitVec.eq_of_toNat_eq
  rw [opField_toNat, command_toNat]
  have := opa.isLt
  omega

@[simp] theorem opaField_command (op : Byte) (opa : Packed) : opaField (command op opa) = opa := by
  apply BitVec.eq_of_toNat_eq
  rw [opaField_toNat, command_toNat]
  have := opa.isLt
  omega

/-- A word is made of its fields. -/
theorem command_fields (c : Command) : command (opField c) (opaField c) = c := by
  apply BitVec.eq_of_toNat_eq
  rw [command_toNat, opField_toNat, opaField_toNat]
  omega

theorem toWordsLE_length (w n v : Nat) : (toWordsLE w n v).length = n := by
  induction n generalizing v with
  | zero => rfl
  | succ n ih => simp [toWordsLE, ih]

/-- Word `k` holds the bits from `wk` up (R55). -/
theorem toWordsLE_getElem? (w n v k : Nat) (h : k < n) :
    (toWordsLE w n v)[k]? = some (BitVec.ofNat w (v / 2 ^ (w * k))) := by
  induction n generalizing v k with
  | zero => omega
  | succ n ih =>
    cases k with
    | zero => simp [toWordsLE]
    | succ k =>
      rw [toWordsLE, List.getElem?_cons_succ, ih _ k (by omega), Nat.div_div_eq_div_mul, ← Nat.pow_add,
        Nat.mul_succ, Nat.add_comm w]

/-- Reading back the words of a number that fits them. -/
theorem ofWordsLE_toWordsLE (w n v : Nat) (h : v < 2 ^ (w * n)) : ofWordsLE w (toWordsLE w n v) = v := by
  induction n generalizing v with
  | zero =>
    have : v = 0 := by simpa using h
    simp [toWordsLE, ofWordsLE, this]
  | succ n ih =>
    have hv : v / 2 ^ w < 2 ^ (w * n) := by
      rw [Nat.div_lt_iff_lt_mul (Nat.two_pow_pos w), ← Nat.pow_add]
      exact h
    rw [toWordsLE, ofWordsLE, ih _ hv, BitVec.toNat_ofNat, Nat.mod_add_div]

end Sys2Proof
end

