-- ==== Sys2Proof/Laws/Adaptor.lean ====
section
/-! SUPPORT. The number of words of a channel. -/

namespace Sys2Proof.Machine

/-- The words of a channel have room for all the bits. -/
theorem bits_le_wordCount (bits : Nat) {w : Nat} (h : 0 < w) : bits ≤ w * wordCount bits w := by
  have h1 := Nat.div_add_mod (bits + w - 1) w
  have h2 := Nat.mod_lt (bits + w - 1) h
  rw [wordCount]
  omega

/-- A number of at most `bits` bits fits the words that carry it. -/
theorem fits_wordCount {bits w v : Nat} (h : 0 < w) (hv : v < 2 ^ bits) : v < 2 ^ (w * wordCount bits w) :=
  Nat.lt_of_lt_of_le hv (Nat.pow_le_pow_right (by decide) (bits_le_wordCount bits h))

end Sys2Proof.Machine
end

