-- ==== Sys2Proof/Laws/Operands.lean ====
section
/-! SUPPORT. The fields of a packed word as numbers, and the cases of validity. -/

namespace Sys2Proof.Machine

theorem high_toNat (P : Packed) : (high P).toNat = P.toNat / 2 ^ 64 % 2 ^ 32 := by
  simp [high, Nat.shiftRight_eq_div_pow]

theorem med_toNat (P : Packed) : (med P).toNat = P.toNat / 2 ^ 32 % 2 ^ 32 := by
  simp [med, Nat.shiftRight_eq_div_pow]

theorem low_toNat (P : Packed) : (low P).toNat = P.toNat % 2 ^ 32 := by
  simp [low]

theorem prec_toNat (P : Packed) : (prec P).toNat = P.toNat / 2 ^ 96 := by
  have := P.isLt
  simp only [prec, BitVec.extractLsb'_toNat, Nat.shiftRight_eq_div_pow]
  omega

theorem mag_toNat (P : Packed) : (mag P).toNat = P.toNat % 2 ^ 95 := by
  simp [mag]

theorem field_toNat (P : Packed) : (field P).toNat = P.toNat % 2 ^ 96 := by
  simp [field]

theorem sign_eq (P : Packed) : sign P = decide (2 ^ 95 ≤ P.toNat % 2 ^ 96) := by
  have h : P.toNat % 2 ^ 96 / 2 ^ 95 = P.toNat / 2 ^ 95 % 2 := by omega
  rw [sign, BitVec.getLsbD, Nat.testBit_eq_decide_div_mod_eq]
  congr 1
  apply propext
  omega

theorem valid_iff (P : Packed) : valid P = true ↔ 1 ≤ (prec P).toNat ∧ (prec P).toNat ≤ 95 := by
  simp only [valid, Bool.and_eq_true, decide_eq_true_eq]
  exact Iff.rfl

theorem not_valid_iff (P : Packed) : valid P = false ↔ (prec P).toNat = 0 ∨ 95 < (prec P).toNat := by
  rw [← Bool.not_eq_true, valid_iff]
  omega

/-- A packed word as a number (R73). -/
theorem pack_toNat (p : Byte) (h m l : Word) :
    (pack p h m l).toNat = p.toNat * 2 ^ 96 + h.toNat * 2 ^ 64 + m.toNat * 2 ^ 32 + l.toNat := by
  rw [pack, BitVec.toNat_append, BitVec.toNat_append, BitVec.toNat_append,
    ← Nat.shiftLeft_add_eq_or_of_lt h.isLt, ← Nat.shiftLeft_add_eq_or_of_lt m.isLt,
    ← Nat.shiftLeft_add_eq_or_of_lt l.isLt]
  simp only [Nat.shiftLeft_eq]
  omega

/-- The fields of a word that was put together from four (R73). -/
theorem fields_pack (p : Byte) (h m l : Word) :
    prec (pack p h m l) = p ∧ high (pack p h m l) = h ∧ med (pack p h m l) = m ∧ low (pack p h m l) = l := by
  refine ⟨?_, ?_, ?_, ?_⟩ <;> apply BitVec.eq_of_toNat_eq <;>
    simp only [prec_toNat, high_toNat, med_toNat, low_toNat, pack_toNat]
  · have := p.isLt; have := h.isLt; have := m.isLt; have := l.isLt; omega
  · have := p.isLt; have := h.isLt; have := m.isLt; have := l.isLt; omega
  · have := p.isLt; have := h.isLt; have := m.isLt; have := l.isLt; omega
  · have := p.isLt; have := h.isLt; have := m.isLt; have := l.isLt; omega

theorem boolResult_toNat (b : Bool) : (boolResult b).toNat = b.toNat := by
  cases b <;> rfl

end Sys2Proof.Machine
end

