-- ==== Sys2Proof/Laws/Approx.lean ====
section
/-! SUPPORT. The window mask and the zero test as facts about numbers. -/

namespace Sys2Proof.Machine

/-- The mask fits its 95 bits, so its number is the exact one (R141). -/
theorem wmask_fits {p : Nat} (h : p ≤ 95) : (2 ^ p - 1) * 2 ^ (95 - p) < 2 ^ 95 := by
  have h1 : (2 ^ p - 1) * 2 ^ (95 - p) + 2 ^ (95 - p) = 2 ^ 95 := by
    rw [← Nat.succ_mul, Nat.succ_eq_add_one, Nat.sub_add_cancel Nat.one_le_two_pow, ← Nat.pow_add]
    congr 1
    omega
  have := Nat.two_pow_pos (95 - p)
  omega

/-- A number is 0 in its bits from `k` up exactly when it is below `2^k`. -/
theorem div_pow_eq_zero_iff (n k : Nat) : n / 2 ^ k = 0 ↔ n < 2 ^ k := by
  rw [Nat.div_eq_zero_iff]
  have := Nat.two_pow_pos k
  omega

end Sys2Proof.Machine
end

