-- ==== Sys2Proof/Laws/Assembler.lean ====
section
/-! SUPPORT. The lines the assembler refuses, and the words of the two formats. -/

namespace Sys2Proof.Machine

/-- A line with a number too wide for its field is an error (R85). -/
theorem assembleLine_of_not_wellFormed {l : AsmLine} (h : l.wellFormed = false) :
    assembleLine l = .error .numberTooWide := by
  simp [assembleLine, h]

/-- The numbers of a D-format line fit exactly where the four bounds hold (R85). -/
theorem wellFormed_fields_iff (m : DMnemonic) (h md l p : Nat) :
    (AsmLine.dform m (.fields h md l p)).wellFormed = true ↔
      h < 2 ^ 32 ∧ md < 2 ^ 32 ∧ l < 2 ^ 32 ∧ p < 2 ^ 8 := by
  simp only [AsmLine.wellFormed, AsmOperand.wellFormed, Bool.and_eq_true, decide_eq_true_eq, and_assoc]

/-- A raw word fits exactly where it has at most 112 bits (R85). -/
theorem wellFormed_raw_iff (x : Nat) : (AsmLine.raw x).wellFormed = true ↔ x < 2 ^ 112 := by
  simp only [AsmLine.wellFormed, decide_eq_true_eq]

/-- The word of a D-format command is its opcode over the operand (R70, R71). -/
theorem encode_dform (m : DMnemonic) (opa : Packed) : encode (m.instr opa) = command (m.instr 0).opcode opa := by
  cases m <;> rfl

/-- The word of an N-format command is its opcode over zeros (R72, R85). -/
theorem encode_nform (m : NMnemonic) : encode m.instr = command m.instr.opcode 0 := by
  cases m <;> rfl

end Sys2Proof.Machine
end

