-- ==== Sys2Proof/Laws/State.lean ====
section
/-! SUPPORT. What each shared operation does to each field of the state, one lemma a field. -/

namespace Sys2Proof.Machine

@[simp] theorem onSuccess_err (st : Status) : st.onSuccess.err = 0 := rfl
@[simp] theorem onSuccess_rv (st : Status) : st.onSuccess.rv = true := rfl
@[simp] theorem onSuccess_ef (st : Status) : st.onSuccess.ef = st.ef := rfl

@[simp] theorem onError_err (c : ErrorCode) (st : Status) : (st.onError c).err = c.bits := rfl
@[simp] theorem onError_rv (c : ErrorCode) (st : Status) : (st.onError c).rv = st.rv := rfl
@[simp] theorem onError_ef (c : ErrorCode) (st : Status) : (st.onError c).ef = true := rfl

@[simp] theorem succeed_res (v : Packed) (s : State) : (succeed v s).res = v := rfl
@[simp] theorem succeed_status (v : Packed) (s : State) : (succeed v s).status = s.status.onSuccess := rfl
@[simp] theorem succeed_host (v : Packed) (s : State) : (succeed v s).host = s.host := rfl

@[simp] theorem raiseError_res (c : ErrorCode) (s : State) : (raiseError c s).res = s.res := rfl
@[simp] theorem raiseError_status (c : ErrorCode) (s : State) :
    (raiseError c s).status = s.status.onError c := rfl
@[simp] theorem raiseError_host (c : ErrorCode) (s : State) : (raiseError c s).host = s.host := rfl

@[simp] theorem resetRegs_res (s : State) : (resetRegs s).res = 0 := rfl
@[simp] theorem resetRegs_status (s : State) : (resetRegs s).status = State.reset.status := rfl
@[simp] theorem resetRegs_host (s : State) : (resetRegs s).host = s.host := rfl

@[simp] theorem advance_res (s : State) : (advance s).res = s.res := rfl
@[simp] theorem advance_status (s : State) : (advance s).status = s.status := rfl
@[simp] theorem advance_host (s : State) : (advance s).host = s.host.tail := rfl

@[simp] theorem resO_eq (s : State) : resO s = s.res := rfl
@[simp] theorem stO_eq (s : State) : stO s = s.status.word := rfl

/-- An error code is 1, 2 or 3 (R180). -/
theorem errorCode_bits (c : ErrorCode) : 1 ≤ c.bits.toNat ∧ c.bits.toNat ≤ 3 := by
  cases c <;> decide

end Sys2Proof.Machine
end

