-- ==== Sys2Proof/Laws/Ops.lean ====
section
/-! SUPPORT. What each shared operation can do, said once. -/

namespace Sys2Proof.Machine

/-- The validation step: the command succeeds, or it fails with `INVALID_PRECISION` (R101, R102). -/
theorem withValid_cases (opa : Packed) (f : Packed → Packed) (s : State) :
    (1 ≤ (prec opa).toNat ∧ (prec opa).toNat ≤ 95 ∧ withValid opa f s = succeed (f opa) s) ∨
      (((prec opa).toNat = 0 ∨ 95 < (prec opa).toNat) ∧ withValid opa f s = raiseError .invalidPrecision s) := by
  cases h : valid opa with
  | true => exact .inl ⟨((valid_iff opa).1 h).1, ((valid_iff opa).1 h).2, by simp [withValid, h]⟩
  | false => exact .inr ⟨(not_valid_iff opa).1 h, by simp [withValid, h]⟩

/-- On a valid operand the command succeeds. -/
theorem withValid_of_valid {opa : Packed} (f : Packed → Packed) (s : State)
    (h : 1 ≤ (prec opa).toNat ∧ (prec opa).toNat ≤ 95) : withValid opa f s = succeed (f opa) s := by
  simp [withValid, (valid_iff opa).2 h]

/-- On an invalid operand the command writes `ST` alone. -/
theorem withValid_of_not_valid {opa : Packed} (f : Packed → Packed) (s : State)
    (h : (prec opa).toNat = 0 ∨ 95 < (prec opa).toNat) :
    withValid opa f s = raiseError .invalidPrecision s := by
  simp [withValid, (not_valid_iff opa).2 h]

/-- Whatever a command with a validation step does, the host's list stays. -/
@[simp] theorem withValid_host (opa : Packed) (f : Packed → Packed) (s : State) :
    (withValid opa f s).host = s.host := by
  unfold withValid
  split <;> rfl

/-- A command presented without reset makes an accept edge of its word (R212). -/
theorem nextKind_present {s : State} {c : Command} {rest : List HostEvent} (h : s.host = present c :: rest) :
    nextKind s = .acceptEdge c := by
  simp [nextKind, h, present, Pins.kind, CmdSource.value]

/-- Moving on, when the next event is known. -/
theorem advance_cons {s : State} {e : HostEvent} {rest : List HostEvent} (h : s.host = e :: rest) :
    advance s = { s with host := rest } := by
  simp [advance, h]

/-- A read of the result gives `RES`, or faults before any success (R40). -/
theorem readResult_cases (s : State) :
    (s.status.rv = true ∧ readResult s = .next s.res) ∨
      (s.status.rv = false ∧ readResult s = .fault .noValue) := by
  cases h : s.status.rv
  · exact .inr ⟨rfl, by simp [readResult, h]⟩
  · exact .inl ⟨rfl, by simp [readResult, h]⟩

/-- A read of the status gives `ST`, or is refused where `ERR` is reserved (93 I5). -/
theorem readStatus_cases (s : State) :
    (s.status.err.toNat ≤ 3 ∧ readStatus s = .next s.status.word) ∨
      (3 < s.status.err.toNat ∧ readStatus s = .refused .reservedErrorCode) := by
  by_cases h : s.status.err.toNat ≤ 3
  · exact .inl ⟨h, by simp [readStatus, Status.errDefined, h]⟩
  · exact .inr ⟨by omega, by simp [readStatus, Status.errDefined, h]⟩

end Sys2Proof.Machine
end

