-- ==== Sys2Proof/Laws/PerInstr.lean ====
section
/-! SUPPORT. Statements made for every instruction, one lemma per constructor. -/

namespace Sys2Proof.Laws.EncodedFields

/-- The word of `i` holds its opcode in `OP` and its operand in `OPA` (30_encoding.md R70, R80). -/
def Statement (i : Instr) : Prop := opField (encode i) = i.opcode ∧ opaField (encode i) = i.operand

theorem new (opa : Packed) : Statement (.new opa) := by simp [Statement, encode]
theorem validate (opa : Packed) : Statement (.validate opa) := by simp [Statement, encode]
theorem unsign (opa : Packed) : Statement (.unsign opa) := by simp [Statement, encode]
theorem isz (opa : Packed) : Statement (.isz opa) := by simp [Statement, encode]
theorem isp (opa : Packed) : Statement (.isp opa) := by simp [Statement, encode]
theorem isn (opa : Packed) : Statement (.isn opa) := by simp [Statement, encode]
theorem isaz (opa : Packed) : Statement (.isaz opa) := by simp [Statement, encode]
theorem isap (opa : Packed) : Statement (.isap opa) := by simp [Statement, encode]
theorem isan (opa : Packed) : Statement (.isan opa) := by simp [Statement, encode]
theorem classify (opa : Packed) : Statement (.classify opa) := by simp [Statement, encode]
theorem cmax : Statement .cmax := by simp [Statement, encode]
theorem cmin : Statement .cmin := by simp [Statement, encode]
theorem czero : Statement .czero := by simp [Statement, encode]
theorem tostr : Statement .tostr := by simp [Statement, encode]

end Sys2Proof.Laws.EncodedFields
end

