-- ==== Sys2Proof/Laws/Step.lean ====
section
/-! SUPPORT. What a command can do to the state, and what a step can answer, each said once. -/

namespace Sys2Proof.Machine

/-- A step answers a next state in one of six ways. -/
theorem step_next_cases {s t : State} (h : step s = .next t) :
    (nextKind s = .resetEdge ∧ t = resetRegs (advance s)) ∨
      (nextKind s = .idleEdge ∧ t = advance s) ∨
      (∃ c i, nextKind s = .acceptEdge c ∧ decode c = .ok i ∧ exec i (advance s) = .next t) ∨
      (∃ c e, nextKind s = .acceptEdge c ∧ decode c = .error e ∧ t = raiseError .illegalOpcode (advance s)) ∨
      (nextKind s = .resultRead ∧ s.status.rv = true ∧ t = advance s) ∨
      (nextKind s = .statusRead ∧ s.status.err.toNat ≤ 3 ∧ t = advance s) := by
  unfold step at h
  cases hk : nextKind s with
  | resetEdge =>
    simp only [hk, Host.Outcome.next.injEq] at h
    exact .inl ⟨rfl, h.symm⟩
  | idleEdge =>
    simp only [hk, Host.Outcome.next.injEq] at h
    exact .inr (.inl ⟨rfl, h.symm⟩)
  | acceptEdge c =>
    simp only [hk] at h
    cases hd : decode c with
    | ok i => exact .inr (.inr (.inl ⟨c, i, rfl, hd, by simpa [hd] using h⟩))
    | error e =>
      simp only [hd, Host.Outcome.next.injEq] at h
      exact .inr (.inr (.inr (.inl ⟨c, e, rfl, hd, h.symm⟩)))
  | undefinedEdge => simp [hk] at h
  | resultRead =>
    obtain ⟨hr, he⟩ | ⟨_, he⟩ := readResult_cases s
    · simp only [hk, he, afterRead, Host.Outcome.next.injEq] at h
      exact .inr (.inr (.inr (.inr (.inl ⟨rfl, hr, h.symm⟩))))
    · simp [hk, he, afterRead] at h
  | statusRead =>
    obtain ⟨hr, he⟩ | ⟨_, he⟩ := readStatus_cases s
    · simp only [hk, he, afterRead, Host.Outcome.next.injEq] at h
      exact .inr (.inr (.inr (.inr (.inr ⟨rfl, hr, h.symm⟩))))
    · simp [hk, he, afterRead] at h

/-- A step on an accept edge whose word is a command of the table. -/
theorem step_present_ok {s : State} {c : Command} {rest : List HostEvent} {i : Instr}
    (h : s.host = present c :: rest) (hd : decode c = .ok i) : step s = exec i { s with host := rest } := by
  simp only [step, nextKind_present h, hd, advance_cons h]

/-- A step on an accept edge whose word is no command of the table. -/
theorem step_present_error {s : State} {c : Command} {rest : List HostEvent} {e : DecodeError}
    (h : s.host = present c :: rest) (hd : decode c = .error e) :
    step s = .next (raiseError .illegalOpcode { s with host := rest }) := by
  simp only [step, nextKind_present h, hd, advance_cons h, rejectCommand]

/-- On any machine, a run of `k + 1` steps is a step and a run of `k`. -/
theorem core_run_succ {M : Host.Core} {k : Nat} {s t : M.State} (h : M.run (k + 1) s = .next t) :
    ∃ u, M.step s = .next u ∧ M.run k u = .next t := by
  unfold Host.Core.run at h
  cases hs : M.step s with
  | next u => exact ⟨u, rfl, by simpa [hs] using h⟩
  | fault r => simp [hs] at h
  | refused r => simp [hs] at h

/-- The same on this machine. -/
theorem run_succ {k : Nat} {s t : State} (h : Host.Core.run Sys2Proof.core (k + 1) s = .next t) :
    ∃ u : State, step s = .next u ∧ Host.Core.run Sys2Proof.core k u = .next t := core_run_succ h

end Sys2Proof.Machine
end

