-- ==== Sys2Proof/Laws/Safety.lean ====
section
/-! SUPPORT. What one step adds to a run and to its observation. -/

namespace Sys2Proof.Machine

/-- A step that answers a next state, at the head of a run. -/
theorem run_of_step {k : Nat} {s t : State} (h : step s = .next t) :
    Host.Core.run Sys2Proof.core (k + 1) s = Host.Core.run Sys2Proof.core k t := by
  have hs : Sys2Proof.core.step s = .next t := h
  rw [Host.Core.run.eq_2 Sys2Proof.core s k, hs]

/-- The observation of a run that begins with the event `e`: the outputs after it stand first where it is an
accept edge (R222). -/
theorem observeSteps_of_step {k : Nat} {s t : State} {e : HostEvent} {rest : List HostEvent} {o : Observation}
    (hh : s.host = e :: rest) (hs : step s = .next t) (ho : observeSteps k t = .next o) :
    observeSteps (k + 1) s =
      .next (if acceptsAt e then { o with accepts := outputs t :: o.accepts } else o) := by
  simp only [observeSteps, hs, ho, hh]

end Sys2Proof.Machine
end

