-- ==== Sys2Proof/Tests/Slice0.lean ====
section
/-! SUPPORT. Tests. Expected results are those of spec/95_test_vectors.md, or are written out from the rule
that the comment names; each is about one step. The witnesses at the end meet the hypotheses of the
statements. -/

namespace Sys2Proof.Tests

open Sys2Proof Sys2Proof.Machine

/-- `(RES, ST)` after the command `w`, accepted in the state `s`. -/
def after (s : State) (w : Command) : Option (Packed × Byte) :=
  match step { s with host := [present w] } with
  | .next t => some (outputs t)
  | _ => none

/-- A state with the given registers and nothing more from the host. -/
def regs (res : Packed) (err : BitVec 4) (rv ef : Bool) : State :=
  { res := res, status := { err := err, rv := rv, ef := ef }, host := [] }

/-- The state after reset, with the host about to do `es`. -/
def withHost (es : List HostEvent) : State := { State.reset with host := es }

/-- An edge with the three ports at the given levels. -/
def pins (rst valid : Bool) (c : CmdSource) : HostEvent :=
  .edge { rst := some rst, cmdValid := some valid, cmd := some c }

/-! ### Well-formedness: one ill-formed term for each check (R85) -/

theorem test_wf_high : (AsmLine.dform .new (.fields 0x100000000 0 0 1)).wellFormed = false := by decide
theorem test_wf_med : (AsmLine.dform .new (.fields 0 0x100000000 0 1)).wellFormed = false := by decide
theorem test_wf_low : (AsmLine.dform .new (.fields 0 0 0x100000000 1)).wellFormed = false := by decide
theorem test_wf_prec : (AsmLine.dform .new (.fields 0 0 0 256)).wellFormed = false := by decide
theorem test_wf_raw : (AsmLine.raw 0x1_00_00_00000000_00000000_00000000).wellFormed = false := by decide
theorem test_wf_invalid_prec_assembles : (AsmLine.dform .new (.fields 0 0 0 255)).wellFormed = true := by decide
theorem test_wf_command : (Instr.new 0x00_FFFFFFFF_FFFFFFFF_FFFFFFFF).wellFormed = true := by decide

/-! ### Decoding: one word for each constructor, bit by bit from R70, R73, R80 -/

theorem test_decode_new : decode 0x01_1E_80000000_DEADBEEF_12345678 = .ok (.new 0x1E_80000000_DEADBEEF_12345678) := by decide
theorem test_decode_validate : decode 0x02_60_00000000_00000000_00000000 = .ok (.validate 0x60_00000000_00000000_00000000) := by decide
theorem test_decode_unsign : decode 0x03_5F_FFFFFFFF_00000000_00000000 = .ok (.unsign 0x5F_FFFFFFFF_00000000_00000000) := by decide
theorem test_decode_isz : decode 0x10_0A_00000001_00000000_00000000 = .ok (.isz 0x0A_00000001_00000000_00000000) := by decide
theorem test_decode_isp : decode 0x11_0A_00000001_00000000_00000000 = .ok (.isp 0x0A_00000001_00000000_00000000) := by decide
theorem test_decode_isn : decode 0x12_5F_80000000_00000000_00000000 = .ok (.isn 0x5F_80000000_00000000_00000000) := by decide
theorem test_decode_isaz : decode 0x18_2F_00000000_00010000_00000000 = .ok (.isaz 0x2F_00000000_00010000_00000000) := by decide
theorem test_decode_isap : decode 0x19_2F_00000000_00010000_00000000 = .ok (.isap 0x2F_00000000_00010000_00000000) := by decide
theorem test_decode_isan : decode 0x1A_5F_80000000_00000000_00000000 = .ok (.isan 0x5F_80000000_00000000_00000000) := by decide
theorem test_decode_class : decode 0x1F_0A_00000001_00000000_00000000 = .ok (.classify 0x0A_00000001_00000000_00000000) := by decide
theorem test_decode_cmax : decode 0x20_00_FFFFFFFF_FFFFFFFF_FFFFFFFF = .ok .cmax := by decide
theorem test_decode_cmin : decode 0x21_00_00000000_00000000_00000000 = .ok .cmin := by decide
theorem test_decode_czero : decode 0x22_00_00000000_00000000_00000000 = .ok .czero := by decide
theorem test_decode_tostr : decode 0x30_00_00000000_00000000_00000000 = .ok .tostr := by decide
theorem test_decode_reserved : decode 0x13_0A_00000000_00000000_00000000 = .error (.reservedOpcode 0x13) := by decide
theorem test_decode_bytes : -- R55: byte 0 is LOW[7:0], bytes 12 and 13 are PREC and OP
    decodeBytes [0x78, 0x56, 0x34, 0x12, 0xEF, 0xBE, 0xAD, 0xDE, 0, 0, 0, 0x80, 0x1E, 0x01] =
      .ok (.new 0x1E_80000000_DEADBEEF_12345678) := by decide
theorem test_decode_short : decodeBytes [0x01] = .error (.wrongLength 1) := by decide
theorem test_decode_table : decodeTableWord 112 0x0100000000000000000000000000 = some (.new 0) := by decide
theorem test_fetch_table : -- after reset the table's TOSTR row runs at the very next step
    step (State.reset.withFetchWord 112 0x3000000000000000000000000000) = exec .tostr State.reset := by rfl

/-! ### Commands from the state after reset (95, Parts 2.1 to 2.7) -/

theorem test_new_low : after State.reset 0x01_01_80000000_DEADBEEF_12345678 = some (0x01_80000000_DEADBEEF_12345678, 0x10) := by decide
theorem test_new_above : after State.reset 0x01_60_80000000_DEADBEEF_12345678 = some (0, 0x21) := by decide
theorem test_validate_0 : after State.reset 0x02_00_00000000_00000000_00000000 = some (0, 0x10) := by decide
theorem test_validate_95 : after State.reset 0x02_5F_00000000_00000000_00000000 = some (1, 0x10) := by decide
theorem test_cmax_operand_ignored : after State.reset 0x20_00_FFFFFFFF_FFFFFFFF_FFFFFFFF = some (0x5F_7FFFFFFF_FFFFFFFF_FFFFFFFF, 0x10) := by decide
theorem test_cmin : after State.reset 0x21_00_00000000_00000000_00000000 = some (0x5F_FFFFFFFF_FFFFFFFF_FFFFFFFF, 0x10) := by decide
theorem test_czero : after State.reset 0x22_00_00000000_00000000_00000000 = some (0x5F_00000000_00000000_00000000, 0x10) := by decide
theorem test_unsign_keeps_prec : after State.reset 0x03_2F_80000001_00000002_00000003 = some (0x2F_00000001_00000002_00000003, 0x10) := by decide
theorem test_unsign_invalid : after State.reset 0x03_00_80000000_00000000_00000000 = some (0, 0x21) := by decide
theorem test_isz_zero : after State.reset 0x10_01_00000000_00000000_00000000 = some (1, 0x10) := by decide
theorem test_isz_signed_zero : after State.reset 0x10_0A_80000000_00000000_00000000 = some (0, 0x10) := by decide
theorem test_isp_below_window : after State.reset 0x11_01_00000000_00000000_00000001 = some (1, 0x10) := by decide
theorem test_isp_zero : after State.reset 0x11_5F_00000000_00000000_00000000 = some (0, 0x10) := by decide
theorem test_isn_signed_zero : after State.reset 0x12_0A_80000000_00000000_00000000 = some (1, 0x10) := by decide
theorem test_isn_invalid : after State.reset 0x12_00_00000000_00000000_00000000 = some (0, 0x21) := by decide
theorem test_isaz_47_in : after State.reset 0x18_2F_00000000_00010000_00000000 = some (0, 0x10) := by decide
theorem test_isaz_1_literal_differs : after State.reset 0x18_01_00000002_00000000_00000000 = some (1, 0x10) := by decide
theorem test_isap_30_in : after State.reset 0x19_1E_00000002_00000000_00000000 = some (1, 0x10) := by decide
theorem test_isap_padding_only : after State.reset 0x19_0A_00000001_00000000_00000000 = some (0, 0x10) := by decide
theorem test_isan_64_in : after State.reset 0x1A_40_80000000_00000000_80000000 = some (1, 0x10) := by decide
theorem test_isan_signed_zero : after State.reset 0x1A_5F_80000000_00000000_00000000 = some (0, 0x10) := by decide
theorem test_class_scenario_2 : after State.reset 0x1F_0A_80000000_00000000_00000000 = some (0xC, 0x10) := by decide
theorem test_class_min : after State.reset 0x1F_5F_FFFFFFFF_FFFFFFFF_FFFFFFFF = some (0x24, 0x10) := by decide
theorem test_tostr : after State.reset 0x30_00_00000000_00000000_00000000 = some (0, 0x22) := by decide
theorem test_reserved_beats_invalid_prec : after State.reset 0x1B_00_00000000_00000000_00000000 = some (0, 0x23) := by decide

/-! ### Status sequencing (95, Part 2.8, steps 2, 3 and 5) and the literal form (95, Part 2.6) -/

theorem test_success_keeps_ef : after (regs 0 1 false true) 0x22_00_00000000_00000000_00000000 = some (0x5F_00000000_00000000_00000000, 0x30) := by decide
theorem test_error_keeps_rv : after (regs 0x5F_00000000_00000000_00000000 0 true true) 0x01_C8_00000005_00000000_00000000 = some (0x5F_00000000_00000000_00000000, 0x31) := by decide
theorem test_tostr_keeps_res : after (regs 1 0 true true) 0x30_00_00000000_00000000_00000000 = some (1, 0x32) := by decide
theorem test_lit_62_in : azLit 0x3E_00000000_00000002_00000000 = true := by decide
theorem test_lit_63_out : azLit 0x3F_00000000_00000000_80000000 = false := by decide

/-! ### Edges and reads (R40, R211, R213, R220) -/

theorem test_reset_beats_command : step { regs 7 3 true true with host := [pins true true (.word 0)] } = .next State.reset := by rfl
theorem test_idle : step { regs 7 3 true true with host := [pins false false (.word 0)] } = .next (regs 7 3 true true) := by rfl
theorem test_undefined : step (withHost [.edge { rst := some false, cmdValid := some true, cmd := none }]) = .refused .undefinedInput := by rfl
theorem test_no_value : step (withHost [.readResult]) = .fault .noValue := by rfl
theorem test_reserved_code : step { regs 0 4 true true with host := [.readStatus] } = .refused .reservedErrorCode := by rfl
theorem test_status_read_keeps : -- R58: the read leaves ERR, EF and RES
    step { regs 7 3 true true with host := [.readStatus] } = .next (regs 7 3 true true) := by rfl
theorem test_status_read_value : readStatus (regs 0 2 false true) = .next 0x22 := by rfl
theorem test_observe : -- 95, Part 2.8, step 1 after the reset edge: the pair is the one after the accept edge
    observe (withHost [pins true false (.word 0), present 0x10_00_00000000_00000000_00000000, pins false false (.word 0)]) =
      .next { accepts := [(0, 0x21)], last := (0, 0x21) } := by rfl
theorem test_at_res : -- P3, step 2: UNSIGN @RES after CMIN
    step { regs 0x5F_FFFFFFFF_FFFFFFFF_FFFFFFFF 0 true false with host := [acceptWith (.resOperand 0x03)] } =
      .next (regs 0x5F_7FFFFFFF_FFFFFFFF_FFFFFFFF 0 true false) := by rfl

/-! ### The adaptor, the assembler and the value formula (R55, R85, R86, R32) -/

theorem test_words : -- word 3: log entry 5
    commandWords 32 0x01_1E_80000000_DEADBEEF_12345678 = [0x12345678, 0xDEADBEEF, 0x80000000, 0x0000011E] := by decide
theorem test_words_back :
    commandOfWords 32 [0x12345678, 0xDEADBEEF, 0x80000000, 0x0000011E] = some 0x01_1E_80000000_DEADBEEF_12345678 := by decide
theorem test_result_words_16 :
    resultWords 16 0x1E_80000000_DEADBEEF_12345678 = [0x5678, 0x1234, 0xBEEF, 0xDEAD, 0x0000, 0x8000, 0x001E] := by decide
theorem test_result_words_short : resultOfWords 32 [1, 2, 3] = none := by decide
theorem test_number_hex : number ['0', 'x', '8', '0', '0', '0', '_', '0', '0', '0', '0'] = some 0x80000000 := by decide
theorem test_number_bad : number ['1', '2', '_'] = none := by decide
theorem test_line_new : -- P1, step 1
    parseLine "NEW 1, 0, 0, 10 ; scenario 1".toList = .ok (some (.dform .new (.fields 1 0 0 10))) := by decide
theorem test_line_word : assembleLine (.dform .new (.fields 1 0 0 10)) = .ok (.word 0x01_0A_00000001_00000000_00000000) := by rfl
theorem test_line_class : parseLine "  CLASS @RES".toList = .ok (some (.dform .classify .res)) := by decide
theorem test_line_cmax : parseLine "CMAX".toList = .ok (some (.nform .cmax)) := by decide
theorem test_line_cmax_operand : parseLine "CMAX 1".toList = .error .badOperands := by decide
theorem test_line_raw : -- P4, step 6
    parseLine ".cmd 0xEE_00_00000000_00000000_00000000".toList = .ok (some (.raw 0xEE_00_00000000_00000000_00000000)) := by decide
theorem test_line_comment : parseLine " ; nothing".toList = .ok none := by decide
theorem test_line_lower_case : parseLine "cmax".toList = .error .unknownMnemonic := by decide
theorem test_program :
    assembleProgram "CMIN\n;\nUNSIGN @RES".toList =
      .ok [acceptWith (.word 0x21_00_00000000_00000000_00000000), acceptWith (.resOperand 0x03)] := by rfl

/-! ### Witnesses: a concrete state and operands that meet the hypotheses of each statement, at the ends of
the ranges where a statement has several clauses -/

/-- The precision of a packed word, as a number. -/
def precOf (P : Packed) : Nat := (prec P).toNat

theorem witness_ResetEdgeClearsRegisters :
    (withHost [pins true true (.word 0)]).host = pins true true (.word 0) :: [] := by rfl
theorem witness_IdleEdgeKeepsRegisters :
    (withHost [pins false false (.word 0)]).host = pins false false (.word 0) :: [] := by rfl
theorem witness_EmptyHostListIdles : (regs 7 3 true true).host = [] := by rfl
theorem witness_StepRunsDecodedCommand :
    (withHost [present 0x01_5F_00000000_00000000_00000000]).host =
        pins false true (.word 0x01_5F_00000000_00000000_00000000) :: [] ∧
      decode 0x01_5F_00000000_00000000_00000000 = .ok (.new 0x5F_00000000_00000000_00000000) ∧
      (Instr.new 0x5F_00000000_00000000_00000000).wellFormed = true := by decide
theorem witness_AtResIsTheOutputCopied :
    (withHost [acceptWith (.resOperand 0x03)]).host = pins false true (.resOperand 0x03) :: [] := by rfl
theorem witness_ReservedOpcodeIsIllegal :
    (0x00 : Byte) ∉ opcodes ∧ (0x31 : Byte) ∉ opcodes ∧ (0xFF : Byte) ∉ opcodes ∧
      (withHost [present (command 0xFF 0)]).host = present (command 0xFF 0) :: [] := by decide
theorem witness_ChecksInOrder :
    (0x04 : Byte) ∉ opcodes ∧ (0x01 : Byte) ∈ dOpcodes ∧ (0x1F : Byte) ∈ dOpcodes ∧ (0x01 : Byte) ≠ 0x02 ∧
      precOf 0 = 0 ∧ precOf 0x60_00000000_00000000_00000000 = 96 ∧ precOf 0x01_00000000_00000000_00000000 = 1 ∧
      precOf 0x5F_00000000_00000000_00000000 = 95 ∧
      (withHost [present (command 0x30 0)]).host = present (command 0x30 0) :: [] := by decide
theorem witness_UndefinedInputIsRefused :
    (withHost [.edge { rst := none, cmdValid := some true, cmd := some (.word 0) }]).host =
      .edge { rst := none, cmdValid := some true, cmd := some (.word 0) } :: [] := by rfl
theorem witness_EveryDefinedEdgeIsTaken :
    (withHost [pins false true (.word 0)]).host = pins false true (.word 0) :: [] ∧
      definedEdge (pins false true (.word 0)) = true := by decide
theorem witness_ResultReadNeedsASuccess :
    (withHost [.readResult]).host = .readResult :: [] ∧ (withHost [.readResult]).status.rv = false ∧
      (withHost [.readStatus]).host = .readStatus :: [] ∧ (regs 1 0 true false).status.rv = true ∧
      (regs 1 3 true true).status.err.toNat ≤ 3 ∧ 4 ≤ (regs 1 4 true true).status.err.toNat := by decide
theorem witness_StopsAreTheNamedOnes :
    (withHost [.readResult]).host.head? = some .readResult ∧ (withHost [.readResult]).status.rv = false ∧
      4 ≤ (regs 0 4 false true).status.err.toNat := by decide
theorem witness_ObservationHasEveryAccept :
    (withHost [pins true false (.word 0), present 0, pins false false (.word 0)]).host.all definedEdge = true := by decide
theorem witness_isRun : isRun [pins true false (.word 0), present 0, pins false false (.word 0)] = true := by decide
theorem witness_DecodingIsTotal :
    opField 0x30_00_00000000_00000000_00000000 ∈ opcodes ∧ opField 0x2F_00_00000000_00000000_00000000 ∉ opcodes := by decide
theorem witness_DecodeOfEncode : Instr.cmax.wellFormed = true ∧ (Instr.isan (-1)).wellFormed = true := by decide
theorem witness_EncodeOfDecode :
    decode 0x1F_FF_FFFFFFFF_FFFFFFFF_FFFFFFFF = .ok (.classify (-1)) ∧ (Instr.classify (-1)).isD = true ∧
      decode 0x22_FF_FFFFFFFF_FFFFFFFF_FFFFFFFF = .ok .czero ∧ Instr.czero.isD = false := by decide
theorem witness_NFormatIgnoresOperand : (0x20 : Byte) ∈ nOpcodes ∧ (0x30 : Byte) ∈ nOpcodes ∧ Instr.tostr.isD = false := by decide
theorem witness_ValidityIsThePrecisionRange :
    prec 0x5F_00000000_00000000_00000000 = prec 0x5F_FFFFFFFF_00000000_00000001 := by decide
theorem witness_NewReturnsItsOperand :
    (1 : Byte).toNat = 1 ∧ (95 : Byte).toNat = 95 ∧ (0 : Byte).toNat = 0 ∧ (96 : Byte).toNat = 96 := by decide
theorem witness_ConstantsAreConstructible : Instr.cmax = .cmax ∨ Instr.cmax = .cmin ∨ Instr.cmax = .czero := by decide
theorem witness_TostrIsUnsupported : ∃ t, exec .czero State.reset = .next t := ⟨_, rfl⟩
/-- The hypotheses of the statements on one D-format command: both ends of the valid range, and both sides
outside it. -/
theorem witness_precision_clauses :
    precOf 0x01_00000000_00000000_00000000 = 1 ∧ precOf 0x5F_FFFFFFFF_FFFFFFFF_FFFFFFFF = 95 ∧
      precOf 0x00_80000000_00000000_00000000 = 0 ∧ precOf 0x60_00000000_00000000_00000000 = 96 ∧
      precOf 0xFF_00000000_00000000_00000000 = 255 := by decide
theorem witness_IsnTestsTheSignAlone :
    valid 0x0A_80000000_00000000_00000000 = true ∧ sign 0x0A_80000000_00000000_00000000 = true ∧
      mag 0x0A_80000000_00000000_00000000 = 0 := by decide
/-- For the statements whose hypothesis is validity alone (`UnsignLaws`, `ExactTrichotomy`,
`MaskTestEqualsTheBands`, `LiteralTestClosedForm`, `ClassAgreesWithSingleCommands`): a word in each band. -/
theorem witness_valid :
    valid 0x01_40000000_00000000_00000000 = true ∧ valid 0x1E_00000002_00000000_00000000 = true ∧
      valid 0x1F_00000001_00000000_00000000 = true ∧ valid 0x3E_00000000_00000002_00000000 = true ∧
      valid 0x3F_00000000_00000001_00000000 = true ∧ valid 0x5E_00000000_00000000_00000002 = true ∧
      valid 0x5F_00000000_00000000_00000001 = true := by decide
theorem witness_ExactTrichotomy :
    isNegative 0x01_80000000_00000000_00000000 = true ∧ isZero 0x01_00000000_00000000_00000000 = true ∧
      sign 0x01_00000000_00000000_00000001 = false := by decide
theorem witness_ExactPredicatesIgnorePrecision :
    valid 0x01_00000000_00000000_00000001 = true ∧ valid 0x5F_00000000_00000000_00000001 = true ∧
      field 0x01_00000000_00000000_00000001 = field 0x5F_00000000_00000000_00000001 := by decide
theorem witness_WindowMaskIsExact : 1 ≤ (1 : Nat) ∧ (1 : Nat) ≤ 95 ∧ 1 ≤ (95 : Nat) ∧ (95 : Nat) ≤ 95 := by decide
theorem witness_LiteralTestClosedForm : prec 0x2F_00000000_00008000_00000000 = 47 ∧ (1 : Nat) ≤ (47 : Byte).toNat ∧ (47 : Byte).toNat ≤ 95 := by decide
theorem witness_ApproximateTrichotomy :
    valid 0x01_40000000_00000000_00000000 = true ∧ azForm .mask 0x01_40000000_00000000_00000000 = false ∧
      sign 0x01_40000000_00000000_00000000 = false ∧ azForm .shiftLiteral 0x01_C0000000_00000000_00000000 = false ∧
      sign 0x01_C0000000_00000000_00000000 = true := by decide
theorem witness_FullPrecisionTestsTheMagnitude : precOf 0x5F_80000000_00000000_00000000 = 95 := by decide
theorem witness_PrecisionOneTestsOneBit : precOf 0x01_3FFFFFFF_FFFFFFFF_FFFFFFFF = 1 := by decide
/-- Two words of precision 1 that differ in padding alone, and two precisions over one field. -/
theorem witness_WindowLaws :
    valid 0x01_40000000_00000000_00000000 = true ∧
      prec 0x01_40000000_00000000_00000000 = prec 0x01_60000000_00000000_00000001 ∧
      sign 0x01_40000000_00000000_00000000 = sign 0x01_60000000_00000000_00000001 ∧
      (mag 0x01_40000000_00000000_00000000).getLsbD 94 = (mag 0x01_60000000_00000000_00000001).getLsbD 94 ∧
      valid 0x02_00000001_00000000_00000000 = true ∧ precOf 0x02_00000001_00000000_00000000 ≤ precOf 0x1E_00000001_00000000_00000000 ∧
      valid 0x1E_00000001_00000000_00000000 = true ∧ azMask 0x1E_00000001_00000000_00000000 = true ∧
      field 0x1E_00000001_00000000_00000000 = field 0x02_00000001_00000000_00000000 ∧
      valid 0x5F_00000000_00000000_00000000 = true ∧ isZero 0x5F_00000000_00000000_00000000 = true := by decide
theorem witness_ResultShapes :
    exec (.classify 0x0A_00000001_00000000_00000000) State.reset = .next (afterSuccess 0x0A State.reset) ∧
      exec (.isz 0x0A_00000001_00000000_00000000) State.reset = .next (afterSuccess 0 State.reset) ∧
      exec .cmin State.reset = .next (afterSuccess 0x5F_FFFFFFFF_FFFFFFFF_FFFFFFFF State.reset) := ⟨rfl, rfl, rfl⟩
theorem witness_RepeatingACommandChangesNothing : ∃ t, exec .tostr State.reset = .next t := ⟨_, rfl⟩
theorem witness_RvStaysUntilReset :
    (regs 1 0 true true).status.rv = true ∧ (∀ e ∈ [present 0, HostEvent.readResult].take 2, resetsAt e = false) ∧
      Host.Core.run Sys2Proof.core 1 (regs 1 0 true true) = .next (regs 1 0 true true) ∧
      Host.Core.run Sys2Proof.core 1 { State.reset with host := [] } = .next State.reset :=
  ⟨rfl, by decide, rfl, rfl⟩
theorem witness_EfStaysUntilReset :
    (withHost [.readStatus]).host.take 1 = [.readStatus] ∧ resetsAt .readStatus = false ∧
      Host.Core.run Sys2Proof.core 1 { regs 1 0 true true with host := [.readStatus] } = .next (regs 1 0 true true) ∧
      (regs 1 0 true true).status.ef = true ∧
      ∃ t, exec .tostr State.reset = .next t ∧ t.status.err ≠ 0 := ⟨rfl, rfl, rfl, rfl, _, rfl, by decide⟩
theorem witness_StepKeepsInv : RegInv (regs 1 3 true true) ∧ ∃ t, step (regs 1 3 true true) = .next t :=
  ⟨by unfold RegInv; decide, _, rfl⟩
theorem witness_ByteChannelCarriesWords : 0 < (1 : Nat) ∧ 0 < (32 : Nat) ∧ 0 < (113 : Nat) := by decide
theorem witness_LinesAssembleToTheirWords :
    (2 ^ 112 - 1 : Nat) < 2 ^ 112 ∧ (2 : Nat) ^ 112 ≤ 0x1_00_00_00000000_00000000_00000000 ∧
      (withHost [acceptWith (.resOperand 0x1F)]).host =
        acceptWith (.resOperand (DMnemonic.classify.instr 0).opcode) :: [] ∧
      (2 ^ 32 - 1 : Nat) < 2 ^ 32 ∧ (255 : Nat) < 2 ^ 8 ∧ (2 : Nat) ^ 32 ≤ 0x100000000 ∧ (2 : Nat) ^ 8 ≤ 256 := by decide

end Sys2Proof.Tests
end

/-! ## What a command leaves, and what a step leaves -/

namespace Sys2Proof.Machine

/-- What a result looks like, by the command that wrote it (R23). -/
def ResultShape : Instr → Packed → Prop
  | .new _, v | .unsign _, v | .cmax, v | .cmin, v | .czero, v => 1 ≤ (prec v).toNat ∧ (prec v).toNat ≤ 95
  | .validate _, v => v = 0 ∨ v = 1
  | .isz _, v | .isp _, v | .isn _, v | .isaz _, v | .isap _, v | .isan _, v => v = 0 ∨ v = 1
  | .classify _, v => v.toNat < 64
  | .tostr, _ => False

/-- A command ends the same way in every state: it succeeds with one result of its shape, or it fails with
one code, which is not that of a reserved opcode (R182, R183, R187, R214). -/
def EndsByProtocol (i : Instr) : Prop :=
  (∃ v, ResultShape i v ∧ ∀ s, exec i s = .next (succeed v s)) ∨
    ∃ c, c ≠ .illegalOpcode ∧ ∀ s, exec i s = .next (raiseError c s)

/-- A command with a validation step ends by protocol when its result on a valid operand has its shape. -/
theorem endsByProtocol_of_withValid {i : Instr} {opa : Packed} {f : Packed → Packed}
    (hexec : ∀ s, exec i s = .next (withValid opa f s))
    (hshape : 1 ≤ (prec opa).toNat ∧ (prec opa).toNat ≤ 95 → ResultShape i (f opa)) : EndsByProtocol i := by
  cases h : valid opa with
  | true =>
    have hp := (valid_iff opa).1 h
    exact .inl ⟨f opa, hshape hp, fun s => by rw [hexec, withValid_of_valid f s hp]⟩
  | false =>
    have hp := (not_valid_iff opa).1 h
    exact .inr ⟨.invalidPrecision, by decide, fun s => by rw [hexec, withValid_of_not_valid f s hp]⟩

theorem boolResult_eq_zero_or_one (b : Bool) : boolResult b = 0 ∨ boolResult b = 1 := by
  cases b
  · exact .inl rfl
  · exact .inr rfl

/-- The class vector has six bits (R79). -/
theorem classVector_toNat_lt (form : ApzForm) (P : Packed) : (classVector form P).toNat < 64 := by
  rw [classVector, BitVec.toNat_setWidth]
  exact Nat.lt_of_le_of_lt (Nat.mod_le _ _) (BitVec.isLt _)

theorem prec_unsignWord (P : Packed) : prec (unsignWord P) = prec P := (fields_pack _ _ _ _).1

/-- Every command of the table ends by protocol. -/
theorem endsByProtocol (i : Instr) : EndsByProtocol i := by
  cases i with
  | new opa => exact endsByProtocol_of_withValid (fun _ => rfl) id
  | unsign opa => exact endsByProtocol_of_withValid (fun _ => rfl) (by simp [ResultShape, prec_unsignWord])
  | isz opa | isp opa | isn opa | isaz opa | isap opa | isan opa =>
    exact endsByProtocol_of_withValid (fun _ => rfl) (fun _ => boolResult_eq_zero_or_one _)
  | classify opa => exact endsByProtocol_of_withValid (fun _ => rfl) (fun _ => classVector_toNat_lt _ _)
  | validate opa => exact .inl ⟨_, boolResult_eq_zero_or_one _, fun _ => rfl⟩
  | cmax | cmin | czero => exact .inl ⟨_, by unfold ResultShape; decide, fun _ => rfl⟩
  | tostr => exact .inr ⟨.unsupported, by decide, fun _ => rfl⟩

/-- What one command answers: the state after a success, or after an error. -/
theorem exec_next_cases {i : Instr} {s t : State} (h : exec i s = .next t) :
    (∃ v, ResultShape i v ∧ t = succeed v s) ∨ ∃ c, t = raiseError c s := by
  obtain ⟨v, hv, he⟩ | ⟨c, _, he⟩ := endsByProtocol i <;> rw [he, Host.Outcome.next.injEq] at h
  · exact .inl ⟨v, hv, h.symm⟩
  · exact .inr ⟨c, h.symm⟩

/-- No command stops the machine (R183, R189). -/
theorem exec_eq_next (i : Instr) (s : State) : ∃ t, exec i s = .next t := by
  obtain ⟨v, _, he⟩ | ⟨c, _, he⟩ := endsByProtocol i
  · exact ⟨_, he s⟩
  · exact ⟨_, he s⟩

/-! ### The status register -/

theorem errorCode_bits_ne_zero (c : ErrorCode) : c.bits ≠ 0 := by
  cases c <;> decide

/-- `ST` as read, bit by bit: `ERR` below bit 4, then `RV`, then `EF`, then zeros (R24, R28). -/
theorem word_getLsbD (st : Status) (i : Nat) : st.word.getLsbD i =
    if i < 4 then st.err.getLsbD i else if i = 4 then st.rv else if i = 5 then st.ef else false := by
  have happ : st.word.getLsbD i =
      (0#2 ++ BitVec.ofBool st.ef ++ BitVec.ofBool st.rv ++ st.err : BitVec (2 + 1 + 1 + 4)).getLsbD i := rfl
  rw [happ, BitVec.getLsbD_append, BitVec.getLsbD_append, BitVec.getLsbD_append]
  obtain h | rfl | rfl | h : i < 4 ∨ i = 4 ∨ i = 5 ∨ 6 ≤ i := by omega
  · simp [h]
  · simp
  · simp
  · have hne : ¬ i < 4 ∧ i - 4 ≠ 0 ∧ i - 4 - 1 ≠ 0 ∧ i ≠ 4 ∧ i ≠ 5 := by omega
    simp [hne]

/-! ### Events and stops -/

theorem pins_kind_undefinedEdge_iff (s : State) (p : Pins) :
    p.kind s = .undefinedEdge ↔ p.rst = none ∨ p.cmdValid = none ∨ p.cmd = none := by
  obtain ⟨_ | _ | _, _ | _ | _, _ | _⟩ := p <;> simp [Pins.kind]

theorem pins_kind_resetEdge {s : State} {p : Pins} (h : p.kind s = .resetEdge) : p.rst = some true := by
  obtain ⟨_ | _ | _, _ | _ | _, _ | _⟩ := p <;> simp_all [Pins.kind]

/-- An edge is no read. -/
theorem pins_kind_ne_read (s : State) (p : Pins) : p.kind s ≠ .resultRead ∧ p.kind s ≠ .statusRead := by
  obtain ⟨_ | _ | _, _ | _ | _, _ | _⟩ := p <;> simp [Pins.kind]

/-- A read of the result is the host's next event (R40). -/
theorem nextKind_resultRead_iff (s : State) : nextKind s = .resultRead ↔ s.host.head? = some .readResult := by
  unfold nextKind
  split <;> simp [*, pins_kind_ne_read]

theorem nextKind_statusRead_iff (s : State) : nextKind s = .statusRead ↔ s.host.head? = some .readStatus := by
  unfold nextKind
  split <;> simp [*, pins_kind_ne_read]

theorem nextKind_undefinedEdge_iff (s : State) : nextKind s = .undefinedEdge ↔
    ∃ p, s.host.head? = some (.edge p) ∧ (p.rst = none ∨ p.cmdValid = none ∨ p.cmd = none) := by
  unfold nextKind
  split <;> simp [*, pins_kind_undefinedEdge_iff]

theorem resetsAt_edge {p : Pins} (h : p.rst = some true) : resetsAt (.edge p) = true := by
  obtain ⟨rst, _, _⟩ := p
  cases h
  rfl

/-- A reset edge is an event with `RST = 1`. -/
theorem resetsAt_of_nextKind {s : State} (h : nextKind s = .resetEdge) :
    ∃ e ∈ s.host.head?, resetsAt e = true := by
  unfold nextKind at h
  split at h
  case h_2 p rest hs => exact ⟨.edge p, by simp [hs], resetsAt_edge (pins_kind_resetEdge h)⟩
  all_goals cases h

/-- An accept edge samples the word that the host drives (R86, R212). -/
theorem nextKind_acceptWith {s : State} {src : CmdSource} {rest : List HostEvent}
    (h : s.host = acceptWith src :: rest) : nextKind s = .acceptEdge (src.value s) := by
  simp [nextKind, h, acceptWith, Pins.kind]

/-- A step on an accept edge answers a next state, whatever the word. -/
theorem step_acceptEdge {s : State} {c : Command} (h : nextKind s = .acceptEdge c) : ∃ t, step s = .next t := by
  simp only [step, h]
  split
  · exact exec_eq_next _ _
  · exact ⟨_, rfl⟩

theorem step_resultRead {s : State} (h : nextKind s = .resultRead) :
    step s = afterRead (advance s) (readResult s) := by
  simp only [step, h]

theorem step_statusRead {s : State} (h : nextKind s = .statusRead) :
    step s = afterRead (advance s) (readStatus s) := by
  simp only [step, h]

/-- Why a step stops: a read without a value is the only fault, a port without a level and a read of a
reserved code the only refusals. Otherwise it goes on. -/
theorem step_cases (s : State) :
    (∃ t, step s = .next t ∧ nextKind s ≠ .undefinedEdge ∧
      (nextKind s = .resultRead → s.status.rv = true) ∧
      (nextKind s = .statusRead → s.status.err.toNat ≤ 3)) ∨
    (step s = .fault .noValue ∧ nextKind s = .resultRead ∧ s.status.rv = false) ∨
    (step s = .refused .undefinedInput ∧ nextKind s = .undefinedEdge) ∨
    (step s = .refused .reservedErrorCode ∧ nextKind s = .statusRead ∧ 3 < s.status.err.toNat) := by
  cases hk : nextKind s with
  | resetEdge => exact .inl ⟨resetRegs (advance s), by simp only [step, hk], by simp⟩
  | idleEdge => exact .inl ⟨advance s, by simp only [step, hk], by simp⟩
  | acceptEdge c =>
    obtain ⟨t, ht⟩ := step_acceptEdge hk
    exact .inl ⟨t, ht, by simp⟩
  | undefinedEdge => exact .inr (.inr (.inl ⟨by simp only [step, hk], rfl⟩))
  | resultRead =>
    obtain ⟨hr, he⟩ | ⟨hr, he⟩ := readResult_cases s
    · exact .inl ⟨advance s, by rw [step_resultRead hk, he, afterRead], by simp [hr]⟩
    · exact .inr (.inl ⟨by rw [step_resultRead hk, he, afterRead], rfl, hr⟩)
  | statusRead =>
    obtain ⟨hr, he⟩ | ⟨hr, he⟩ := readStatus_cases s
    · exact .inl ⟨advance s, by rw [step_statusRead hk, he, afterRead], by simp [hr]⟩
    · exact .inr (.inr (.inr ⟨by rw [step_statusRead hk, he, afterRead], rfl, hr⟩))

/-- A step faults only where the host reads a result before any success (R40). -/
theorem step_eq_fault_iff (s : State) (r : Fault) :
    step s = .fault r ↔ r = .noValue ∧ nextKind s = .resultRead ∧ s.status.rv = false := by
  obtain ⟨t, ht, _, hr, _⟩ | ⟨ht, hk, hrv⟩ | ⟨ht, hk⟩ | ⟨ht, hk, _⟩ := step_cases s
  · simp +contextual [ht, hr]
  · simp [ht, hk, hrv]
  · simp [ht, hk]
  · simp [ht, hk]

/-- A step is refused only at an undefined edge and at a read of a reserved code (R220, 93 I2, I5). -/
theorem step_eq_refused_iff (s : State) (r : Refusal) :
    step s = .refused r ↔ (r = .undefinedInput ∧ nextKind s = .undefinedEdge) ∨
      (r = .reservedErrorCode ∧ nextKind s = .statusRead ∧ 4 ≤ s.status.err.toNat) := by
  obtain ⟨t, ht, hu, _, hs⟩ | ⟨ht, hk, _⟩ | ⟨ht, hk⟩ | ⟨ht, hk, herr⟩ := step_cases s
  · have hread : nextKind s = .statusRead → ¬ 4 ≤ s.status.err.toNat := fun hk => by
      have := hs hk
      omega
    simp +contextual [ht, hu, hread]
  · simp [ht, hk]
  · simp [ht, hk, eq_comm]
  · simp [ht, hk, Nat.succ_le_of_lt herr, eq_comm]

/-! ### The registers after a step, and runs -/

/-- What one step makes of the registers: a reset edge clears them, a command succeeds or fails, or they stay. -/
theorem step_next_registers {s t : State} (h : step s = .next t) :
    ((∃ e ∈ s.host.head?, resetsAt e = true) ∧ t = resetRegs (advance s)) ∨ t = advance s ∨
      (∃ i v, ResultShape i v ∧ t = succeed v (advance s)) ∨ ∃ c, t = raiseError c (advance s) := by
  obtain ⟨hk, ht⟩ | ⟨_, ht⟩ | ⟨_, i, _, _, hexec⟩ | ⟨_, _, _, _, ht⟩ | ⟨_, _, ht⟩ | ⟨_, _, ht⟩ :=
    step_next_cases h
  · exact .inl ⟨resetsAt_of_nextKind hk, ht⟩
  · exact .inr (.inl ht)
  · obtain ⟨v, hv, ht⟩ | ⟨c, ht⟩ := exec_next_cases hexec
    · exact .inr (.inr (.inl ⟨i, v, hv, ht⟩))
    · exact .inr (.inr (.inr ⟨c, ht⟩))
  · exact .inr (.inr (.inr ⟨_, ht⟩))
  · exact .inr (.inl ht)
  · exact .inr (.inl ht)

/-- A step takes one event off the host's list. -/
theorem step_next_host {s t : State} (h : step s = .next t) : t.host = s.host.tail := by
  obtain ⟨_, rfl⟩ | rfl | ⟨_, _, _, rfl⟩ | ⟨_, rfl⟩ := step_next_registers h <;> rfl

/-- What every step keeps, on a host whose events meet `Q`, holds along every run on events that meet `Q`. -/
theorem run_keeps {P : State → Prop} {Q : HostEvent → Prop}
    (hstep : ∀ s t, P s → (∀ e ∈ s.host.head?, Q e) → step s = .next t → P t) (k : Nat) {s t : State}
    (hs : P s) (hq : ∀ e ∈ s.host.take k, Q e) (hrun : Host.Core.run Sys2Proof.core k s = .next t) : P t := by
  induction k generalizing s with
  | zero =>
    cases hrun
    exact hs
  | succ k ih =>
    obtain ⟨u, hu, hrest⟩ := run_succ hrun
    have hhost := step_next_host hu
    cases hh : s.host with
    | nil =>
      rw [hh] at hhost
      exact ih (hstep s u hs (by simp [hh]) hu) (by simp [hhost]) hrest
    | cons e es =>
      rw [hh] at hhost hq
      exact ih (hstep s u hs (by simpa [hh] using hq e (by simp)) hu)
        (fun e' he' => hq e' (by simpa [hhost] using Or.inr he')) hrest

/-- Without a reset edge a step keeps `RV = 1` (R26). -/
theorem step_keeps_rv {s t : State} (hrv : s.status.rv = true) (hno : ∀ e ∈ s.host.head?, resetsAt e = false)
    (h : step s = .next t) : t.status.rv = true := by
  obtain ⟨⟨e, he, hr⟩, _⟩ | rfl | ⟨_, _, _, rfl⟩ | ⟨_, rfl⟩ := step_next_registers h
  · simp [hno e he] at hr
  all_goals simp [hrv]

/-- Without a reset edge a step keeps `EF = 1` (R27). -/
theorem step_keeps_ef {s t : State} (hef : s.status.ef = true) (hno : ∀ e ∈ s.host.head?, resetsAt e = false)
    (h : step s = .next t) : t.status.ef = true := by
  obtain ⟨⟨e, he, hr⟩, _⟩ | rfl | ⟨_, _, _, rfl⟩ | ⟨_, rfl⟩ := step_next_registers h
  · simp [hno e he] at hr
  all_goals simp [hef]

/-! ### The register invariant -/

/-- The table of R23: a result is a valid packed word or a vector of at most six bits. -/
theorem ResultShape.valid_or_lt {i : Instr} {v : Packed} (h : ResultShape i v) :
    valid v = true ∨ v.toNat < 64 := by
  cases i with
  | new _ | unsign _ | cmax | cmin | czero => exact .inl ((valid_iff v).2 h)
  | validate _ | isz _ | isp _ | isn _ | isaz _ | isap _ | isan _ =>
    obtain rfl | rfl := h
    · exact .inr (by decide)
    · exact .inr (by decide)
  | classify _ => exact .inr h
  | tostr => exact h.elim

/-- The invariant holds of cleared registers, whatever the host will do. -/
theorem regInv_resetRegs (s : State) : RegInv (resetRegs s) :=
  ⟨Nat.zero_le 3, fun h => absurd rfl h, fun _ => rfl, .inr (Nat.zero_lt_succ 63)⟩

/-- A success restores the invariant, whatever the registers were. -/
theorem regInv_succeed {i : Instr} {v : Packed} (hv : ResultShape i v) (s : State) : RegInv (succeed v s) :=
  ⟨by simp, by simp, by simp, hv.valid_or_lt⟩

/-- An error keeps the invariant: `RES` and `RV` stay. -/
theorem regInv_raiseError (c : ErrorCode) {s : State} (h : RegInv s) : RegInv (raiseError c s) := by
  obtain ⟨_, _, hres, hshape⟩ := h
  exact ⟨(errorCode_bits c).2, by simp, hres, hshape⟩

/-- The invariant does not speak of the host's list. -/
theorem regInv_advance {s : State} (h : RegInv s) : RegInv (advance s) := h

theorem step_keeps_regInv {s t : State} (h : RegInv s) (hs : step s = .next t) : RegInv t := by
  obtain ⟨_, rfl⟩ | rfl | ⟨_, _, hv, rfl⟩ | ⟨c, rfl⟩ := step_next_registers hs
  · exact regInv_resetRegs _
  · exact regInv_advance h
  · exact regInv_succeed hv _
  · exact regInv_raiseError c (regInv_advance h)

/-! ### Values -/

/-- The field is the three words (R76). -/
theorem field_toNat_words (P : Packed) :
    (field P).toNat = (high P).toNat * 2 ^ 64 + (med P).toNat * 2 ^ 32 + (low P).toNat := by
  rw [field_toNat, high_toNat, med_toNat, low_toNat]
  omega

/-- The sign bit is the top bit of the field. -/
theorem high_getLsbD_31 (P : Packed) : (high P).getLsbD 31 = (field P).msb := by
  simp [high, field, BitVec.msb_eq_getLsbD_last]

/-- The value formula of R32 is the field, read in two's complement, scaled. -/
theorem value_eq_toInt_div (P : Packed) : value P = ((field P).toInt : Rat) / 2 ^ 64 := by
  rw [value, high_getLsbD_31, BitVec.toInt_eq_msb_cond, field_toNat_words]
  split
  · push_cast
    ring
  · push_cast
    ring

/-- The field of `MAX` is the largest 96-bit number in two's complement. -/
theorem field_toInt_le_maxWord (P : Packed) : (field P).toInt ≤ (field maxWord).toInt := by
  have hmax : (field maxWord).toInt = 2 ^ 95 - 1 := by decide
  have hlt : (field P).toInt < 2 ^ 95 := BitVec.toInt_lt
  omega

theorem value_le_maxWord (P : Packed) : value P ≤ value maxWord := by
  rw [value_eq_toInt_div, value_eq_toInt_div]
  have h : ((field P).toInt : Rat) ≤ (field maxWord).toInt := by exact_mod_cast field_toInt_le_maxWord P
  gcongr

theorem value_maxWord : value maxWord = 2 ^ 31 - 1 / 2 ^ 64 := by
  have h : (field maxWord).toInt = 2 ^ 95 - 1 := by decide
  rw [value_eq_toInt_div, h]
  norm_num

theorem value_minWord : value minWord = -(1 / 2 ^ 64) := by
  have h : (field minWord).toInt = -1 := by decide
  rw [value_eq_toInt_div, h]
  norm_num

/-- The word of precision 95 with the sign bit alone has the value `-2^31`. -/
theorem value_signAlone : value (pack 95 0x80000000 0 0) = -2 ^ 31 := by
  have h : (field (pack 95 0x80000000 0 0)).toInt = -2 ^ 95 := by decide
  rw [value_eq_toInt_div, h]
  norm_num

/-! ### Encoding and the assembler -/

/-- Decoding the word of a command gives the command back (R70, R80). -/
theorem decode_encode (i : Instr) : decode (encode i) = .ok i := by
  cases i <;> simp [decode, encode, Instr.opcode, Instr.operand]

/-- The opcode of a D-format mnemonic over an operand is its command on that operand. -/
theorem decode_dform (m : DMnemonic) (opa : Packed) :
    decode (command (m.instr 0).opcode opa) = .ok (m.instr opa) := by
  rw [← encode_dform, decode_encode]

theorem assembleLine_nform (m : NMnemonic) :
    assembleLine (.nform m) = .ok (.word (command m.instr.opcode 0)) := by
  rw [← encode_nform]
  rfl

/-- The operand of a D-format line, its numbers cut to their fields (R73, R85). -/
def lineOperand (h md l p : Nat) : Packed :=
  pack (BitVec.ofNat 8 p) (BitVec.ofNat 32 h) (BitVec.ofNat 32 md) (BitVec.ofNat 32 l)

theorem assembleLine_fields (m : DMnemonic) {h md l p : Nat}
    (hfit : h < 2 ^ 32 ∧ md < 2 ^ 32 ∧ l < 2 ^ 32 ∧ p < 2 ^ 8) :
    assembleLine (.dform m (.fields h md l p)) =
      .ok (.word (command (m.instr 0).opcode (lineOperand h md l p))) := by
  rw [← encode_dform]
  simp only [assembleLine, (wellFormed_fields_iff m h md l p).2 hfit, if_true, lineOperand]

/-- Numbers that fit are not cut. -/
theorem lineOperand_toNat {h md l p : Nat} (hfit : h < 2 ^ 32 ∧ md < 2 ^ 32 ∧ l < 2 ^ 32 ∧ p < 2 ^ 8) :
    (lineOperand h md l p).toNat = p * 2 ^ 96 + h * 2 ^ 64 + md * 2 ^ 32 + l := by
  obtain ⟨hh, hmd, hl, hp⟩ := hfit
  simp only [lineOperand, pack_toNat, BitVec.toNat_ofNat, Nat.mod_eq_of_lt hh, Nat.mod_eq_of_lt hmd,
    Nat.mod_eq_of_lt hl, Nat.mod_eq_of_lt hp]

theorem assembleLine_fields_error (m : DMnemonic) {h md l p : Nat}
    (hwide : 2 ^ 32 ≤ h ∨ 2 ^ 32 ≤ md ∨ 2 ^ 32 ≤ l ∨ 2 ^ 8 ≤ p) :
    assembleLine (.dform m (.fields h md l p)) = .error .numberTooWide := by
  apply assembleLine_of_not_wellFormed
  rw [← Bool.not_eq_true, wellFormed_fields_iff]
  omega

theorem assembleLine_raw {x : Nat} (h : x < 2 ^ 112) :
    assembleLine (.raw x) = .ok (.word (BitVec.ofNat 112 x)) := by
  simp only [assembleLine, (wellFormed_raw_iff x).2 h, if_true]

theorem assembleLine_raw_error {x : Nat} (h : 2 ^ 112 ≤ x) :
    assembleLine (.raw x) = .error .numberTooWide := by
  apply assembleLine_of_not_wellFormed
  rw [← Bool.not_eq_true, wellFormed_raw_iff]
  omega

/-- A step on an accept edge whose opcode is a D-format mnemonic's over `RES_O` (R86, log entry 7). -/
theorem step_resOperand (m : DMnemonic) {s : State} {rest : List HostEvent}
    (h : s.host = acceptWith (.resOperand (m.instr 0).opcode) :: rest) :
    step s = exec (m.instr (resO s)) { s with host := rest } := by
  simp only [step, nextKind_acceptWith h, CmdSource.value, decode_dform, advance_cons h]

/-! ### The obligations -/

/-- Settles O51: no step without a reset edge clears `RV`, and a run keeps it by induction; from reset the
register invariant says the rest. -/
theorem rvStaysUntilReset : Obligations.RvStaysUntilReset := by
  refine ⟨rfl, fun i s t h herr => ?_, fun k s t hrv hno hrun => ?_, fun k es t hrun hrv => ?_⟩
  · obtain ⟨v, _, rfl⟩ | ⟨c, rfl⟩ := exec_next_cases h
    · simp
    · exact absurd herr (errorCode_bits_ne_zero c)
  · exact run_keeps (P := fun s => s.status.rv = true) (fun _ _ => step_keeps_rv) k hrv hno hrun
  · have hinv : RegInv t := run_keeps (Q := fun _ => True) (fun _ _ h _ => step_keeps_regInv h) k
      (regInv_resetRegs { State.reset with host := es }) (fun _ _ => trivial) hrun
    obtain ⟨_, _, hres, _⟩ := hinv
    exact hres hrv

/-- Settles O52: no step without a reset edge clears `EF`, and a run keeps it by induction. -/
theorem efStaysUntilReset : Obligations.EfStaysUntilReset := by
  refine ⟨rfl, fun i s t h herr => ?_, fun k s t hef hno hrun => ?_⟩
  · obtain ⟨v, _, rfl⟩ | ⟨c, rfl⟩ := exec_next_cases h
    · exact absurd rfl herr
    · simp
  · exact run_keeps (P := fun s => s.status.ef = true) (fun _ _ => step_keeps_ef) k hef hno hrun

/-- Settles O53: each of the four things a step makes of the registers keeps the invariant. -/
theorem stepKeepsInv : Obligations.StepKeepsInv := fun _ _ => step_keeps_regInv

/-- Settles O11: what stops a step, said of the head of the host's list. -/
theorem stopsAreTheNamedOnes : Obligations.StopsAreTheNamedOnes := by
  intro s
  refine ⟨fun r => ?_, fun r => ?_⟩
  · rw [step_eq_fault_iff, nextKind_resultRead_iff]
  · rw [step_eq_refused_iff, nextKind_undefinedEdge_iff, nextKind_statusRead_iff]

/-- Settles O47, by the shape of the one result a command can have. -/
theorem resultShapes : Obligations.ResultShapes := by
  intro i s v h
  have hv : ResultShape i v := by
    obtain ⟨w, hw, he⟩ | ⟨c, he⟩ := exec_next_cases h
    · have hres : v = w := congrArg State.res he
      rwa [hres]
    · have herr : 0 = c.bits := congrArg (fun t => t.status.err) he
      exact absurd herr.symm (errorCode_bits_ne_zero c)
  cases i <;> exact hv

/-- Settles O56: the formula is the field in two's complement, word by word. -/
theorem valueIsScaledTwosComplement : Obligations.ValueIsScaledTwosComplement := value_eq_toInt_div

/-- Settles O57; the word with the sign bit alone lies below `MIN`. -/
theorem valuesOfTheConstants : Obligations.ValuesOfTheConstants := by
  refine ⟨value_le_maxWord, value_maxWord, value_minWord, pack 95 0x80000000 0 0, by decide, ?_⟩
  rw [value_signAlone, value_minWord]
  norm_num

/-- Settles O59, a clause for each form of line. -/
theorem linesAssembleToTheirWords : Obligations.LinesAssembleToTheirWords := by
  refine ⟨fun m h md l p => ⟨fun hfit => ?_, assembleLine_fields_error m⟩, fun m => ?_,
    fun x => ⟨fun hx => ?_, assembleLine_raw_error⟩, fun m => ⟨rfl, fun s rest hh => step_resOperand m hh⟩,
    rfl, rfl⟩
  · refine ⟨_, assembleLine_fields m hfit, ?_, _, decode_dform m _, lineOperand_toNat hfit⟩
    rw [command_toNat, lineOperand_toNat hfit]
    omega
  · exact ⟨_, assembleLine_nform m, by rw [command_toNat]; simp, by rw [← encode_nform, decode_encode]⟩
  · exact ⟨_, assembleLine_raw hx, by rw [BitVec.toNat_ofNat, Nat.mod_eq_of_lt hx]⟩

/-- Settles O1: `State.reset` written out, and `ST_O` computed from it. -/
theorem resetLeavesZero : Obligations.ResetLeavesZero :=
  ⟨rfl, rfl, rfl, rfl, rfl, by decide⟩

/-- Settles O12, by what a read can answer. -/
theorem resultReadNeedsASuccess : Obligations.ResultReadNeedsASuccess := by
  refine ⟨fun s rest hh => ?_, fun s rest hh => ?_⟩
  · have hk : nextKind s = .resultRead := (nextKind_resultRead_iff s).2 (by simp [hh])
    refine ⟨fun hrv => (step_eq_fault_iff s _).2 ⟨rfl, hk, hrv⟩, fun hrv => ?_⟩
    have hread : readResult s = .next (resO s) := by simp only [readResult, hrv, if_true]
    exact ⟨hread, rfl, by rw [step_resultRead hk, hread, advance_cons hh, afterRead]⟩
  · have hk : nextKind s = .statusRead := (nextKind_statusRead_iff s).2 (by simp [hh])
    refine ⟨fun herr => ?_, fun herr => (step_eq_refused_iff s _).2 (.inr ⟨rfl, hk, herr⟩)⟩
    have hread : readStatus s = .next (stO s) := by
      simp only [readStatus, Status.errDefined, herr, decide_true, if_true]
    exact ⟨hread, by rw [step_statusRead hk, hread, advance_cons hh, afterRead]⟩

/-- Settles O54: the reset state is what a reset edge leaves. -/
theorem resetMeetsInv : Obligations.ResetMeetsInv := regInv_resetRegs State.reset

/-- Settles O55: `ST_O` is the concatenation of its four parts, read back at their places. -/
theorem statusLayout : Obligations.StatusLayout := by
  intro s
  rw [stO_eq]
  refine ⟨?_, by rw [word_getLsbD]; rfl, by rw [word_getLsbD]; rfl, ?_⟩
  · apply BitVec.eq_of_getLsbD_eq
    intro i hi
    simp [word_getLsbD, hi]
  · apply BitVec.eq_of_getLsbD_eq
    intro i hi
    have hne : ¬ 6 + i < 4 ∧ 6 + i ≠ 4 ∧ 6 + i ≠ 5 := by omega
    simp [word_getLsbD, hne]

end Sys2Proof.Machine

/-! ## Repeated commands, and the channels of a host adaptor (20_memory.md) -/

namespace Sys2Proof.Machine

/-! ### Repeating a protocol -/

@[simp] theorem succeed_succeed (v : Packed) (s : State) : succeed v (succeed v s) = succeed v s := rfl

@[simp] theorem raiseError_raiseError (c : ErrorCode) (s : State) :
    raiseError c (raiseError c s) = raiseError c s := rfl

/-- Settles O49: a command writes the same result, or the same code, in every state, and writing it twice is
writing it once. -/
theorem repeatingACommandChangesNothing : Obligations.RepeatingACommandChangesNothing := by
  intro i s t h
  obtain ⟨v, _, he⟩ | ⟨c, _, he⟩ := endsByProtocol i
  · rw [he, Host.Outcome.next.injEq] at h
    rw [he, ← h, succeed_succeed]
  · rw [he, Host.Outcome.next.injEq] at h
    rw [he, ← h, raiseError_raiseError]

/-! ### Channels -/

/-- The words of the number that `ws` spells are `ws`. -/
theorem toWordsLE_ofWordsLE {w n : Nat} (ws : List (BitVec w)) (hn : ws.length = n) :
    toWordsLE w n (ofWordsLE w ws) = ws := by
  induction ws generalizing n with
  | nil =>
    subst hn
    rfl
  | cons b bs ih =>
    subst hn
    have hlow : BitVec.ofNat w (b.toNat + 2 ^ w * ofWordsLE w bs) = b := by
      apply BitVec.eq_of_toNat_eq
      rw [BitVec.toNat_ofNat, Nat.add_mul_mod_self_left, Nat.mod_eq_of_lt b.isLt]
    have hrest : (b.toNat + 2 ^ w * ofWordsLE w bs) / 2 ^ w = ofWordsLE w bs := by
      rw [Nat.add_mul_div_left _ _ (Nat.two_pow_pos w), Nat.div_eq_of_lt b.isLt, Nat.zero_add]
    rw [List.length_cons, ofWordsLE, toWordsLE, hlow, hrest, ih rfl]

/-- A channel of any width loses no bit of what it carries (R55). -/
theorem ofNat_ofWordsLE_toWordsLE {bits w : Nat} (hw : 0 < w) (x : BitVec bits) :
    BitVec.ofNat bits (ofWordsLE w (toWordsLE w (wordCount bits w) x.toNat)) = x := by
  rw [ofWordsLE_toWordsLE _ _ _ (fits_wordCount hw x.isLt), BitVec.ofNat_toNat, BitVec.setWidth_eq]

theorem commandOfWords_commandWords {w : Nat} (hw : 0 < w) (c : Command) :
    commandOfWords w (commandWords w c) = some c := by
  rw [commandOfWords, commandWords, if_pos (toWordsLE_length _ _ _), ofNat_ofWordsLE_toWordsLE hw]

theorem resultOfWords_resultWords {w : Nat} (hw : 0 < w) (v : Packed) :
    resultOfWords w (resultWords w v) = some v := by
  rw [resultOfWords, resultWords, if_pos (toWordsLE_length _ _ _), ofNat_ofWordsLE_toWordsLE hw]

/-- The bytes of a command are its words of 8 bits. -/
theorem commandBytes_eq_commandWords (c : Command) : commandBytes c = commandWords 8 c := rfl

theorem commandOfBytes_commandBytes (c : Command) : commandOfBytes (commandBytes c) = .ok c := by
  have hlen : (commandBytes c).length = 14 := toWordsLE_length _ _ _
  rw [commandOfBytes, if_pos hlen, commandBytes_eq_commandWords, commandWords,
    ofNat_ofWordsLE_toWordsLE (by decide)]

/-- The fourth word of a command, `{16'h0, OP, PREC}`, as a number. -/
theorem opPrecWord_toNat (op p : Byte) : (0#16 ++ op ++ p).toNat = op.toNat * 2 ^ 8 + p.toNat := by
  rw [BitVec.toNat_append, BitVec.toNat_append, ← Nat.shiftLeft_add_eq_or_of_lt p.isLt, Nat.shiftLeft_eq]
  simp

/-- The fourth word of a result, as a number. -/
theorem precWord_toNat (p : Byte) : (0#24 ++ p).toNat = p.toNat := by
  rw [BitVec.toNat_append]
  simp

/-- A command by 32-bit words: `LOW`, `MED`, `HIGH`, then the opcode over the precision (R55, log entry 5). -/
theorem commandWords_32 (op p : Byte) (h m l : Word) :
    commandWords 32 (command op (pack p h m l)) = [l, m, h, 0#16 ++ op ++ p] := by
  have hnum : (command op (pack p h m l)).toNat = ofWordsLE 32 [l, m, h, 0#16 ++ op ++ p] := by
    simp only [command_toNat, pack_toNat, ofWordsLE, opPrecWord_toNat]
    omega
  rw [commandWords, hnum]
  exact toWordsLE_ofWordsLE _ rfl

/-- A result by 32-bit words: `LOW`, `MED`, `HIGH`, then the precision (R55). -/
theorem resultWords_32 (p : Byte) (h m l : Word) :
    resultWords 32 (pack p h m l) = [l, m, h, 0#24 ++ p] := by
  have hnum : (pack p h m l).toNat = ofWordsLE 32 [l, m, h, 0#24 ++ p] := by
    simp only [pack_toNat, ofWordsLE, precWord_toNat]
    omega
  rw [resultWords, hnum]
  exact toWordsLE_ofWordsLE _ rfl

/-- Settles O58: bytes are the channel of width 8, and a channel of any width has room for every bit; the
four words of 32 bits spell the number that they are read from. -/
theorem byteChannelCarriesWords : Obligations.ByteChannelCarriesWords := by
  refine ⟨fun c => ?_, fun v => ?_, fun w c hw => ?_, fun w v hw => ?_, fun op p h m l => ?_⟩
  · exact ⟨toWordsLE_length _ _ _, commandOfBytes_commandBytes c, toWordsLE_getElem? _ _ _⟩
  · exact ⟨toWordsLE_length _ _ _, resultOfWords_resultWords (by decide) v, toWordsLE_getElem? _ _ _⟩
  · exact ⟨toWordsLE_length _ _ _, commandOfWords_commandWords hw c, toWordsLE_getElem? _ _ _⟩
  · exact ⟨toWordsLE_length _ _ _, resultOfWords_resultWords hw v, toWordsLE_getElem? _ _ _⟩
  · exact ⟨commandWords_32 op p h m l, resultWords_32 p h m l⟩

end Sys2Proof.Machine

/-! ## The encoding and the packed word (30_encoding.md) -/

namespace Sys2Proof.Machine

/-! ### The opcode table -/

/-- The opcodes of the D format are those of its mnemonics (R71, R80). -/
theorem mem_dOpcodes_iff (op : Byte) : op ∈ dOpcodes ↔ ∃ m : DMnemonic, (m.instr 0).opcode = op := by
  constructor
  · intro h
    have hmap : dOpcodes = [DMnemonic.new, .validate, .unsign, .isz, .isp, .isn, .isaz, .isap, .isan,
      .classify].map (fun m => (m.instr 0).opcode) := rfl
    rw [hmap] at h
    obtain ⟨m, _, hm⟩ := List.mem_map.1 h
    exact ⟨m, hm⟩
  · rintro ⟨m, rfl⟩
    cases m <;> decide

/-- The opcodes of the N format are those of its mnemonics (R71, R80). -/
theorem mem_nOpcodes_iff (op : Byte) : op ∈ nOpcodes ↔ ∃ m : NMnemonic, m.instr.opcode = op := by
  constructor
  · intro h
    have hmap : nOpcodes = [NMnemonic.cmax, .cmin, .czero, .tostr].map (fun m => m.instr.opcode) := rfl
    rw [hmap] at h
    obtain ⟨m, _, hm⟩ := List.mem_map.1 h
    exact ⟨m, hm⟩
  · rintro ⟨m, rfl⟩
    cases m <;> decide

theorem mem_opcodes_iff (op : Byte) : op ∈ opcodes ↔ op ∈ dOpcodes ∨ op ∈ nOpcodes := List.mem_append

/-- The operand of a D-format command is no part of its opcode. -/
theorem opcode_dform (m : DMnemonic) (opa : Packed) : (m.instr opa).opcode = (m.instr 0).opcode := by
  cases m <;> rfl

@[simp] theorem isD_dform (m : DMnemonic) (opa : Packed) : (m.instr opa).isD = true := by
  cases m <;> rfl

@[simp] theorem isD_nform (m : NMnemonic) : m.instr.isD = false := by
  cases m <;> rfl

/-! ### What the decoder can answer -/

/-- The opcode of an N-format mnemonic over any operand is its command (R72). -/
theorem decode_nform (m : NMnemonic) (opa : Packed) : decode (command m.instr.opcode opa) = .ok m.instr := by
  cases m <;> simp [decode, NMnemonic.instr, Instr.opcode]

theorem mem_opcodes_of_toNat_eq {op : Byte} {n : Nat} (hop : op.toNat = n)
    (hn : BitVec.ofNat 8 n ∈ opcodes) : op ∈ opcodes := by
  rwa [← hop, BitVec.ofNat_toNat, BitVec.setWidth_eq] at hn

/-- A word whose opcode is in no row of the table is rejected with it (R82, R87). -/
theorem decode_reserved {c : Command} (h : opField c ∉ opcodes) :
    decode c = .error (.reservedOpcode (opField c)) := by
  unfold decode
  split
  case h_15 => rfl
  all_goals
    rename_i hop
    exact absurd (mem_opcodes_of_toNat_eq hop (by decide)) h

/-- Every word is a D-format command on its operand, an N-format command, or reserved (R71, R72, R82). -/
theorem decode_cases (c : Command) :
    (∃ m : DMnemonic, (m.instr 0).opcode = opField c ∧ decode c = .ok (m.instr (opaField c))) ∨
      (∃ m : NMnemonic, m.instr.opcode = opField c ∧ decode c = .ok m.instr) ∨
      (opField c ∉ opcodes ∧ decode c = .error (.reservedOpcode (opField c))) := by
  by_cases h : opField c ∈ opcodes
  · obtain hd | hn := (mem_opcodes_iff _).1 h
    · obtain ⟨m, hm⟩ := (mem_dOpcodes_iff _).1 hd
      exact .inl ⟨m, hm, by rw [← decode_dform, hm, command_fields]⟩
    · obtain ⟨m, hm⟩ := (mem_nOpcodes_iff _).1 hn
      exact .inr (.inl ⟨m, hm, by rw [← decode_nform m (opaField c), hm, command_fields]⟩)
  · exact .inr (.inr ⟨h, decode_reserved h⟩)

/-! ### Accept edges -/

/-- Two states that sample the same word at an accept edge, and are the same after it but for what the
command does, step alike (R212). -/
theorem step_congr_of_acceptEdge {s t : State} {c : Command} (hs : nextKind s = .acceptEdge c)
    (ht : nextKind t = .acceptEdge c) (hadv : advance s = advance t) : step s = step t := by
  simp only [step, hs, ht, hadv]

/-- Every opcode that is not in the table fails with `ILLEGAL_OPCODE` (R82, R185). -/
theorem step_present_reserved {s : State} {op : Byte} {opa : Packed} {rest : List HostEvent}
    (hop : op ∉ opcodes) (h : s.host = present (command op opa) :: rest) :
    step s = .next (afterError 3 { s with host := rest }) :=
  step_present_error h (decode_reserved (by rwa [opField_command]))

/-! ### The packed word by its bits -/

theorem sign_eq_high_getLsbD (P : Packed) : sign P = (high P).getLsbD 31 := by
  simp [sign, high]

theorem mag_getLsbD (P : Packed) {i : Nat} (hi : i < 95) : (mag P).getLsbD i = P.getLsbD i := by
  simp [mag, hi]

theorem high_getLsbD (P : Packed) {i : Nat} (hi : i < 32) : (high P).getLsbD i = P.getLsbD (64 + i) := by
  simp [high, hi]

/-- The magnitude is the three words without the sign bit (R76). -/
theorem mag_toNat_words (P : Packed) :
    (mag P).toNat = (high P).toNat % 2 ^ 31 * 2 ^ 64 + (med P).toNat * 2 ^ 32 + (low P).toNat := by
  rw [mag_toNat, high_toNat, med_toNat, low_toNat]
  omega

/-- A packed word is made of its fields (R73). -/
theorem pack_fields (P : Packed) : pack (prec P) (high P) (med P) (low P) = P := by
  apply BitVec.eq_of_toNat_eq
  rw [pack_toNat, prec_toNat, high_toNat, med_toNat, low_toNat]
  omega

/-! ### The class vector -/

/-- The class vector bit by bit, bit 0 first, and zeros above bit 5 (R79, R148). -/
theorem classVector_getLsbD (form : ApzForm) (P : Packed) (k : Nat) : (classVector form P).getLsbD k =
    [isZero P, isPositive P, isNegative P, azForm form P, isApproxPositive form P,
      isApproxNegative form P].getD k false := by
  have happ : (classVector form P).getLsbD k =
      ((BitVec.ofBool (isApproxNegative form P) ++ BitVec.ofBool (isApproxPositive form P)
        ++ BitVec.ofBool (azForm form P) ++ BitVec.ofBool (isNegative P) ++ BitVec.ofBool (isPositive P)
        ++ BitVec.ofBool (isZero P) : BitVec (1 + 1 + 1 + 1 + 1 + 1)).setWidth 104).getLsbD k := rfl
  rw [happ, BitVec.getLsbD_setWidth]
  by_cases h : k < 6
  · simp only [BitVec.getLsbD_append, BitVec.getLsbD_ofBool]
    interval_cases k <;> simp
  · rw [BitVec.getLsbD_of_ge _ _ (Nat.le_of_not_lt h), List.getD_eq_default _ _ (Nat.le_of_not_lt h),
      Bool.and_false]

/-- `CLASS` on a valid operand writes the class vector (R148). -/
theorem exec_classify_of_valid {P : Packed} (s : State) (h : 1 ≤ (prec P).toNat ∧ (prec P).toNat ≤ 95) :
    exec (.classify P) s = .next (afterSuccess (classVector Config.apzForm P) s) :=
  congrArg Host.Outcome.next (withValid_of_valid _ s h)

/-- `CLASS` on another operand fails with `INVALID_PRECISION` (R101, R148). -/
theorem exec_classify_of_not_valid {P : Packed} (s : State)
    (h : (prec P).toNat = 0 ∨ 95 < (prec P).toNat) :
    exec (.classify P) s = .next (afterError 1 s) :=
  congrArg Host.Outcome.next (withValid_of_not_valid _ s h)

/-! ### The obligations -/

/-- Settles O15: the opcode is the row of the table that the decoder takes, and the operand stands beside it. -/
theorem decodeOfEncode : Obligations.DecodeOfEncode := fun i _ => decode_encode i

/-- Settles O7: the reserved opcodes counted, and what the step does on each. -/
theorem reservedOpcodeIsIllegal : Obligations.ReservedOpcodeIsIllegal :=
  ⟨by decide +kernel, fun _ _ _ _ hop hhost => step_present_reserved hop hhost⟩

/-- Settles O14, by the three answers of the decoder. -/
theorem decodingIsTotal : Obligations.DecodingIsTotal := by
  refine ⟨fun c hmem => ?_, fun c => decode_reserved, fun s c rest h => step_acceptEdge (nextKind_present h)⟩
  obtain ⟨m, hop, hd⟩ | ⟨m, hop, hd⟩ | ⟨hres, _⟩ := decode_cases c
  · exact ⟨_, hd, by rw [opcode_dform, hop]⟩
  · exact ⟨_, hd, hop⟩
  · exact absurd hmem hres

/-- Settles O16: a D-format command keeps the whole word, an N-format command the opcode alone. -/
theorem encodeOfDecode : Obligations.EncodeOfDecode := by
  intro c i h
  obtain ⟨m, hop, hd⟩ | ⟨m, hop, hd⟩ | ⟨_, hd⟩ := decode_cases c
  · obtain rfl : m.instr (opaField c) = i := Except.ok.inj (hd.symm.trans h)
    exact ⟨fun _ => by rw [encode_dform, hop, command_fields], by simp⟩
  · obtain rfl : m.instr = i := Except.ok.inj (hd.symm.trans h)
    exact ⟨by simp, fun _ => by rw [encode_nform, hop]⟩
  · cases hd.symm.trans h

/-- Settles O18: both words decode to the same command, which carries no operand. -/
theorem nFormatIgnoresOperand : Obligations.NFormatIgnoresOperand := by
  refine ⟨fun op hop s a b rest => ?_, fun i hi => ?_⟩
  · obtain ⟨m, rfl⟩ := (mem_nOpcodes_iff op).1 hop
    rw [step_present_ok rfl (decode_nform m a), step_present_ok rfl (decode_nform m b)]
  · rw [encode, opaField_command]
    cases i with
    | cmax | cmin | czero | tostr => exact ⟨by decide, rfl⟩
    | _ => cases hi

/-- Settles O19: each extractor as a number, and the bits that two of them share. -/
theorem fieldExtractors : Obligations.FieldExtractors := by
  intro P
  have h94 : (mag P).getLsbD 94 = (high P).getLsbD 30 := by
    rw [mag_getLsbD P (by decide), high_getLsbD P (by decide)]
  exact ⟨high_toNat P, med_toNat P, low_toNat P, prec_toNat P, sign_eq_high_getLsbD P, rfl, mag_toNat P,
    mag_toNat_words P, field_toNat P, field_toNat_words P, fun _ => mag_getLsbD P, h94⟩

/-- Settles O20, from the number of a packed word in both directions. -/
theorem packedLayout : Obligations.PackedLayout :=
  ⟨fun p h m l => ⟨pack_toNat p h m l, fields_pack p h m l⟩, pack_fields⟩

/-- Settles O40, a bit of the class vector at a time. -/
theorem classVectorLayout : Obligations.ClassVectorLayout := by
  intro s P
  refine ⟨decode_encode (.classify P), fun hv => ?_, exec_classify_of_not_valid s, rfl⟩
  have hbit := classVector_getLsbD Config.apzForm P
  exact ⟨_, exec_classify_of_valid s hv, hbit 0, hbit 1, hbit 2, hbit 3, hbit 4, hbit 5,
    fun k hk => (hbit k).trans (List.getD_eq_default _ _ hk)⟩

/-- Settles O6: both edges sample the word with `RES_O` as its operand. -/
theorem atResIsTheOutputCopied : Obligations.AtResIsTheOutputCopied := by
  intro s op rest h
  exact step_congr_of_acceptEdge (nextKind_acceptWith h) (nextKind_present rfl) (advance_cons h)

/-- Settles O17, each word decoded by computation. -/
theorem writtenWordsDecode : Obligations.WrittenWordsDecode := by
  unfold Obligations.WrittenWordsDecode
  decide

end Sys2Proof.Machine

/-! ## Validation, construction and the constants (40_construction.md) -/

namespace Sys2Proof.Machine

/-! ### `NEW` and `VALIDATE` by the validity of their operand -/

theorem boolResult_eq_one_iff (b : Bool) : boolResult b = 1 ↔ b = true := by
  cases b <;> decide

/-- A success and an error of the same state differ in `ERR` (R182, R183). -/
theorem succeed_ne_raiseError (v : Packed) (c : ErrorCode) (s : State) : succeed v s ≠ raiseError c s :=
  fun h => errorCode_bits_ne_zero c (congrArg (fun t => t.status.err) h).symm

/-- `NEW` on a valid operand returns it (R105). -/
theorem exec_new_of_valid {P : Packed} (s : State) (h : 1 ≤ (prec P).toNat ∧ (prec P).toNat ≤ 95) :
    exec (.new P) s = .next (afterSuccess P s) :=
  congrArg Host.Outcome.next (withValid_of_valid _ s h)

/-- `NEW` on another operand fails with `INVALID_PRECISION` (R101, R105). -/
theorem exec_new_of_not_valid {P : Packed} (s : State) (h : (prec P).toNat = 0 ∨ 95 < (prec P).toNat) :
    exec (.new P) s = .next (afterError 1 s) :=
  congrArg Host.Outcome.next (withValid_of_not_valid _ s h)

/-- `NEW` succeeds exactly on the valid operands (R105). -/
theorem exec_new_succeeds_iff (P : Packed) (s : State) :
    (∃ v, exec (.new P) s = .next (afterSuccess v s)) ↔ valid P = true := by
  refine ⟨fun ⟨v, hv⟩ => ?_, fun h => ⟨P, exec_new_of_valid s ((valid_iff P).1 h)⟩⟩
  cases h : valid P with
  | true => rfl
  | false =>
    have herr := exec_new_of_not_valid s ((not_valid_iff P).1 h)
    exact absurd (Host.Outcome.next.inj (hv.symm.trans herr)) (succeed_ne_raiseError v .invalidPrecision s)

/-- `VALIDATE` succeeds on every operand, with its validity as the result (R106). -/
theorem exec_validate (P : Packed) (s : State) :
    exec (.validate P) s = .next (afterSuccess (boolResult (valid P)) s) := rfl

/-- `VALIDATE` answers 1 exactly on the valid operands (R106). -/
theorem exec_validate_res_eq_one_iff (P : Packed) (s : State) :
    (∃ t, exec (.validate P) s = .next t ∧ t.res = 1) ↔ valid P = true := by
  rw [exec_validate, ← boolResult_eq_one_iff]
  refine ⟨fun ⟨t, ht, hres⟩ => ?_, fun h => ⟨_, rfl, h⟩⟩
  rwa [← Host.Outcome.next.inj ht] at hres

/-- The precision range as a result. -/
theorem boolResult_valid (P : Packed) :
    boolResult (valid P) = if 1 ≤ (prec P).toNat ∧ (prec P).toNat ≤ 95 then 1 else 0 := by
  simp only [boolResult, valid_iff]

/-- A result that is put together with precision 95 is valid, and `NEW` returns it (R111). -/
theorem constant_constructible {i : Instr} {s : State} {h m l : Word}
    (hexec : exec i s = .next (succeed (pack 95 h m l) s)) :
    ∃ c, exec i s = .next (afterSuccess c s) ∧ (prec c).toNat = 95 ∧ valid c = true ∧
      exec (.new c) s = .next (afterSuccess c s) := by
  have hprec : (prec (pack 95 h m l)).toNat = 95 := congrArg BitVec.toNat (fields_pack 95 h m l).1
  have hv : 1 ≤ (prec (pack 95 h m l)).toNat ∧ (prec (pack 95 h m l)).toNat ≤ 95 := by omega
  exact ⟨_, hexec, hprec, (valid_iff _).2 hv, exec_new_of_valid s hv⟩

/-! ### The obligations -/

/-- Settles O21: the precision is bits 103:96, and validity reads nothing else. -/
theorem validityIsThePrecisionRange : Obligations.ValidityIsThePrecisionRange := by
  refine ⟨fun P => ?_, fun P Q h => ?_⟩
  · rw [valid_iff, prec_toNat]
  · rw [Bool.eq_iff_iff, valid_iff, valid_iff, h]

/-- Settles O22: the precision of the operand is its first field. -/
theorem newReturnsItsOperand : Obligations.NewReturnsItsOperand := by
  intro s p h m l
  have hprec : prec (p ++ h ++ m ++ l) = p := (fields_pack p h m l).1
  exact ⟨fun hp => exec_new_of_valid s (by rwa [hprec]), fun hp => exec_new_of_not_valid s (by rwa [hprec])⟩

/-- Settles O48: both sides are the validity of the operand. -/
theorem validateForetellsNew : Obligations.ValidateForetellsNew :=
  fun s P => (exec_validate_res_eq_one_iff P s).trans (exec_new_succeeds_iff P s).symm

/-- Settles O23; in the rule's example the precision is 96. -/
theorem validateReportsValidity : Obligations.ValidateReportsValidity := by
  intro s P
  have hexample : boolResult (valid 0x60_00000000_00000000_00000000) = 0 := by decide
  refine ⟨decode_dform .validate P, ?_, ?_⟩
  · rw [exec_validate, boolResult_valid]
  · rw [exec_validate, hexample]

/-- Settles O24: the decoder takes the opcode over any operand, and the constants are written out. -/
theorem constantCommands : Obligations.ConstantCommands :=
  fun _ => ⟨decode_nform .cmax, rfl, decode_nform .cmin, rfl, decode_nform .czero, rfl⟩

/-- Settles O25: each constant is put together with precision 95. -/
theorem constantsAreConstructible : Obligations.ConstantsAreConstructible := by
  intro s i hi
  obtain rfl | rfl | rfl := hi
  · exact constant_constructible rfl
  · exact constant_constructible rfl
  · exact constant_constructible rfl

end Sys2Proof.Machine

/-! ## The sign-clearing helper (41_unsign.md) -/

namespace Sys2Proof.Machine

/-! ### The word that `UNSIGN` returns -/

/-- Bit 95 of the returned word is 0, every other bit that of the operand (R120). -/
theorem unsignWord_getLsbD (P : Packed) (i : Nat) :
    (unsignWord P).getLsbD i = if i = 95 then false else P.getLsbD i := by
  have happ : unsignWord P = (prec P ++ (0#1 ++ (high P).extractLsb' 0 31) ++ med P ++ low P :
    BitVec (8 + (1 + 31) + 32 + 32)) := rfl
  rw [happ, BitVec.getLsbD_append, BitVec.getLsbD_append, BitVec.getLsbD_append, BitVec.getLsbD_append]
  simp only [prec, high, med, low, BitVec.getLsbD_extractLsb']
  -- The bands: `low`, `med`, the magnitude bits of `high`, the sign bit, `prec`.
  obtain h | h | h | rfl | h : i < 32 ∨ (32 ≤ i ∧ i < 64) ∨ (64 ≤ i ∧ i < 95) ∨ i = 95 ∨ 96 ≤ i := by omega
  · have hband : i ≠ 95 := by omega
    simp [h, hband]
  · have hband : ¬ i < 32 ∧ i - 32 < 32 ∧ i ≠ 95 := by omega
    simp [hband, h]
  · have hband : ¬ i < 32 ∧ ¬ i - 32 < 32 ∧ i - 32 - 32 < 31 ∧ i - 32 - 32 < 32 ∧
      64 + (i - 32 - 32) = i ∧ i ≠ 95 := by omega
    simp [hband]
  · simp
  · have hband : ¬ i < 32 ∧ ¬ i - 32 < 32 ∧ ¬ i - 32 - 32 < 32 ∧
      96 + (i - 32 - 32 - 32) = i ∧ i ≠ 95 := by omega
    have hlt : P.getLsbD i = true → i - 32 - 32 - 32 < 8 := fun hP => by
      have := BitVec.lt_of_getLsbD hP
      omega
    simpa [hband] using hlt

/-- The two forms in which R120 writes the result are one word. -/
theorem unsignWord_eq_and (P : Packed) : unsignWord P = P &&& ~~~(1#104 <<< 95) := by
  apply BitVec.eq_of_getLsbD_eq
  intro i hi
  rw [unsignWord_getLsbD]
  have hbit : (1#104 <<< 95).getLsbD i = decide (95 = i) := by
    rw [← BitVec.twoPow_eq, BitVec.getLsbD_twoPow]
    rfl
  rw [BitVec.getLsbD_and, BitVec.getLsbD_not, hbit]
  by_cases h : i = 95
  · simp [h]
  · simp [h, hi, Ne.symm h]

theorem sign_unsignWord (P : Packed) : sign (unsignWord P) = false := by
  rw [sign, unsignWord_getLsbD, if_pos rfl]

theorem mag_unsignWord (P : Packed) : mag (unsignWord P) = mag P := by
  apply BitVec.eq_of_getLsbD_eq
  intro i hi
  rw [mag_getLsbD _ hi, mag_getLsbD _ hi, unsignWord_getLsbD, if_neg (Nat.ne_of_lt hi)]

theorem valid_unsignWord (P : Packed) : valid (unsignWord P) = valid P := by
  rw [Bool.eq_iff_iff, valid_iff, valid_iff, prec_unsignWord]

/-- Clearing the sign a second time changes nothing (R122). -/
theorem unsignWord_unsignWord (P : Packed) : unsignWord (unsignWord P) = unsignWord P := by
  rw [unsignWord_eq_and, unsignWord_eq_and, BitVec.and_assoc, BitVec.and_self]

/-- The exact zero test looks at the sign bit and the magnitude, and at nothing else (R76, R130). -/
theorem isZero_iff (P : Packed) : isZero P = true ↔ sign P = false ∧ mag P = 0 := by
  have hwords : isZero P = true ↔ (high P).toNat = 0 ∧ (med P).toNat = 0 ∧ (low P).toNat = 0 := by
    simp only [isZero, Bool.and_eq_true, beq_iff_eq, BitVec.toNat_eq, and_assoc]
    rfl
  have hmag : mag P = 0 ↔ (mag P).toNat = 0 := BitVec.toNat_eq
  rw [hwords, hmag, sign_eq, decide_eq_false_iff_not, high_toNat, med_toNat, low_toNat, mag_toNat]
  omega

/-- Without the sign bit the zero test is that of the magnitude (R122). -/
theorem isZero_unsignWord_iff (P : Packed) : isZero (unsignWord P) = true ↔ mag P = 0 := by
  rw [isZero_iff, sign_unsignWord, mag_unsignWord, eq_self, true_and]

/-! ### The commands on a valid operand, and on another -/

/-- `UNSIGN` on a valid operand returns it without its sign (R120). -/
theorem exec_unsign_of_valid {P : Packed} (s : State) (h : valid P = true) :
    exec (.unsign P) s = .next (afterSuccess (unsignWord P) s) :=
  congrArg Host.Outcome.next (withValid_of_valid _ s ((valid_iff P).1 h))

/-- `UNSIGN` on another operand fails with `INVALID_PRECISION` (R101, R120). -/
theorem exec_unsign_of_not_valid {P : Packed} (s : State) (h : (prec P).toNat = 0 ∨ 95 < (prec P).toNat) :
    exec (.unsign P) s = .next (afterError 1 s) :=
  congrArg Host.Outcome.next (withValid_of_not_valid _ s h)

/-- `ISZ` on a valid operand returns the exact zero test (R131). -/
theorem exec_isz_of_valid {P : Packed} (s : State) (h : valid P = true) :
    exec (.isz P) s = .next (afterSuccess (boolResult (isZero P)) s) :=
  congrArg Host.Outcome.next (withValid_of_valid _ s ((valid_iff P).1 h))

/-! ### The obligations -/

/-- Settles O27: both forms of the result are one word; `MIN` and the rule's example are computed. -/
theorem unsignClearsTheSign : Obligations.UnsignClearsTheSign := by
  intro s P
  have hmin : unsignWord minWord = maxWord := by decide
  have hexample : unsignWord 0x5F_FFFFFFFF_00000000_00000000 = 0x5F_7FFFFFFF_00000000_00000000 := by decide
  refine ⟨decode_dform .unsign P, fun hp => ?_, exec_unsign_of_not_valid s, ?_, ?_⟩
  · rw [exec_unsign_of_valid s ((valid_iff P).2 hp), unsignWord_eq_and]
  · rw [exec_unsign_of_valid s (by decide), hmin]
  · rw [exec_unsign_of_valid s (by decide), hexample]

/-- Settles O28: the result keeps magnitude and precision, so it is valid itself. -/
theorem unsignLaws : Obligations.UnsignLaws := by
  intro s P hv
  have hq : valid (unsignWord P) = true := (valid_unsignWord P).trans hv
  refine ⟨unsignWord P, exec_unsign_of_valid s hv, mag_unsignWord P, prec_unsignWord P, sign_unsignWord P, ?_, ?_⟩
  · rw [exec_unsign_of_valid s hq, unsignWord_unsignWord]
  · simp only [exec_isz_of_valid s hq, boolResult, isZero_unsignWord_iff]

end Sys2Proof.Machine

/-! ## The exact predicates (42_exact_predicates.md) -/

namespace Sys2Proof.Machine

/-! ### The predicates as tests of the 96-bit field -/

theorem sign_iff_field (P : Packed) : sign P = true ↔ 2 ^ 95 ≤ (field P).toNat := by
  rw [sign_eq, decide_eq_true_eq, field_toNat]

/-- The exact zero test looks at the whole field (R130, R131). -/
theorem isZero_iff_field (P : Packed) : isZero P = true ↔ (field P).toNat = 0 := by
  have hmag : mag P = 0 ↔ (mag P).toNat = 0 := BitVec.toNat_eq
  rw [isZero_iff, ← Bool.not_eq_true, sign_iff_field, hmag, mag_toNat, field_toNat]
  omega

/-- A positive word has a non-zero field below the sign bit (R130, R132). -/
theorem isPositive_iff_field (P : Packed) :
    isPositive P = true ↔ (field P).toNat < 2 ^ 95 ∧ (field P).toNat ≠ 0 := by
  rw [isPositive, Bool.and_eq_true, Bool.not_eq_true', Bool.not_eq_true', ← Bool.not_eq_true, ← Bool.not_eq_true,
    sign_iff_field, isZero_iff_field, Nat.not_le]

/-- The negative test is the sign bit alone (R130, R134). -/
theorem isNegative_iff_field (P : Packed) : isNegative P = true ↔ 2 ^ 95 ≤ (field P).toNat :=
  sign_iff_field P

/-- Words with the same field, whatever their precisions, are classified alike (R136). -/
theorem exactPredicates_congr {P Q : Packed} (h : field P = field Q) :
    isZero P = isZero Q ∧ isPositive P = isPositive Q ∧ isNegative P = isNegative Q := by
  refine ⟨?_, ?_, ?_⟩ <;> rw [Bool.eq_iff_iff]
  · rw [isZero_iff_field, isZero_iff_field, h]
  · rw [isPositive_iff_field, isPositive_iff_field, h]
  · rw [isNegative_iff_field, isNegative_iff_field, h]

/-! ### The predicates against one another (R135) -/

theorem sign_eq_false_of_isZero {P : Packed} (h : isZero P = true) : sign P = false :=
  ((isZero_iff P).1 h).1

theorem isZero_eq_false_of_sign {P : Packed} (h : sign P = true) : isZero P = false := by
  rw [← Bool.not_eq_true]
  exact fun hz => Bool.noConfusion (h.symm.trans (sign_eq_false_of_isZero hz))

theorem isPositive_eq_false_of_sign {P : Packed} (h : sign P = true) : isPositive P = false := by
  rw [isPositive, h, Bool.not_true, Bool.false_and]

theorem isPositive_eq_not_isZero {P : Packed} (h : sign P = false) : isPositive P = !isZero P := by
  rw [isPositive, h, Bool.not_false, Bool.true_and]

/-- The sign bit is the top bit of `high` (R76). -/
theorem two_pow_le_high_of_sign {P : Packed} (h : sign P = true) : 2 ^ 31 ≤ (high P).toNat := by
  rw [sign_iff_field, field_toNat] at h
  rw [high_toNat]
  omega

/-! ### The commands on a valid operand, and on another -/

/-- A command with a validation step returns `f` of a valid operand (R101, R182). -/
theorem exec_of_valid {i : Instr} {P : Packed} {f : Packed → Packed} {s : State}
    (hexec : exec i s = .next (withValid P f s)) (h : valid P = true) :
    exec i s = .next (afterSuccess (f P) s) :=
  hexec.trans (congrArg Host.Outcome.next (withValid_of_valid f s ((valid_iff P).1 h)))

/-- A command with a validation step fails with `INVALID_PRECISION` on another operand (R101, R183). -/
theorem exec_of_not_valid {i : Instr} {P : Packed} {f : Packed → Packed} {s : State}
    (hexec : exec i s = .next (withValid P f s)) (h : (prec P).toNat = 0 ∨ 95 < (prec P).toNat) :
    exec i s = .next (afterError 1 s) :=
  hexec.trans (congrArg Host.Outcome.next (withValid_of_not_valid f s h))

/-- `ISP` on a valid operand returns the exact positive test (R132). -/
theorem exec_isp_of_valid {P : Packed} (s : State) (h : valid P = true) :
    exec (.isp P) s = .next (afterSuccess (boolResult (isPositive P)) s) :=
  exec_of_valid (f := fun P => boolResult (isPositive P)) rfl h

/-- `ISN` on a valid operand returns the exact negative test (R133). -/
theorem exec_isn_of_valid {P : Packed} (s : State) (h : valid P = true) :
    exec (.isn P) s = .next (afterSuccess (boolResult (isNegative P)) s) :=
  exec_of_valid (f := fun P => boolResult (isNegative P)) rfl h

/-! ### The obligations -/

/-- Settles O29: the zero test is that of the field's number. -/
theorem iszTestsTheWholeField : Obligations.IszTestsTheWholeField := by
  intro s P
  refine ⟨decode_dform .isz P, fun hp => ?_, exec_of_not_valid rfl⟩
  rw [exec_isz_of_valid s ((valid_iff P).2 hp)]
  simp only [boolResult, isZero_iff_field, field_toNat]

/-- Settles O30: the positive test is one of the field's number. -/
theorem ispTestsSignAndField : Obligations.IspTestsSignAndField := by
  intro s P
  refine ⟨decode_dform .isp P, fun hp => ?_, exec_of_not_valid rfl⟩
  rw [exec_isp_of_valid s ((valid_iff P).2 hp)]
  simp only [boolResult, isPositive_iff_field, field_toNat]

/-- Settles O31; the asymmetry of R134 needs the sign bit alone, so it holds at a zero magnitude too. -/
theorem isnTestsTheSignAlone : Obligations.IsnTestsTheSignAlone := by
  intro s P
  refine ⟨decode_dform .isn P, fun hp => ?_, exec_of_not_valid rfl, fun hv hs _ => ⟨?_, ?_, ?_⟩⟩
  · rw [exec_isn_of_valid s ((valid_iff P).2 hp)]
    simp only [boolResult, isNegative_iff_field, field_toNat]
  · rw [exec_isn_of_valid s hv, isNegative, hs]
    rfl
  · rw [exec_isp_of_valid s hv, isPositive_eq_false_of_sign hs]
    rfl
  · rw [exec_isz_of_valid s hv, isZero_eq_false_of_sign hs]
    rfl

/-- Settles O32: a set sign excludes the other two, and without it the zero test decides. -/
theorem exactTrichotomy : Obligations.ExactTrichotomy := by
  intro P _
  refine ⟨?_, fun hn => ⟨two_pow_le_high_of_sign hn, isZero_eq_false_of_sign hn⟩, sign_eq_false_of_isZero,
    isPositive_eq_not_isZero⟩
  cases hs : sign P with
  | true => exact .inr (.inr ⟨isZero_eq_false_of_sign hs, isPositive_eq_false_of_sign hs, hs⟩)
  | false =>
    rw [isPositive_eq_not_isZero hs]
    cases isZero P with
    | true => exact .inl ⟨rfl, rfl, hs⟩
    | false => exact .inr (.inl ⟨rfl, rfl, hs⟩)

/-- Settles O33: the field decides each predicate. -/
theorem exactPredicatesIgnorePrecision : Obligations.ExactPredicatesIgnorePrecision := by
  intro s P Q hP hQ h
  obtain ⟨hz, hp, hn⟩ := exactPredicates_congr h
  refine ⟨_, _, _, exec_isz_of_valid s hP, ?_, exec_isp_of_valid s hP, ?_, exec_isn_of_valid s hP, ?_⟩
  · rw [hz, exec_isz_of_valid s hQ]
  · rw [hp, exec_isp_of_valid s hQ]
  · rw [hn, exec_isn_of_valid s hQ]

end Sys2Proof.Machine

/-! ## The precision-aware predicates (43_approx_predicates.md) -/

namespace Sys2Proof.Machine

/-! ### The window mask (R140, R141) -/

theorem wmask_toNat {p : Nat} (hp : p ≤ 95) : (wmask p).toNat = (2 ^ p - 1) * 2 ^ (95 - p) := by
  rw [wmask, BitVec.toNat_ofNat, Nat.mod_eq_of_lt (wmask_fits hp)]

/-- The ones of the mask are the bits of the window, and no others (R140, R141). -/
theorem wmask_getLsbD {p i : Nat} (hp : p ≤ 95) (hi : i < 95) :
    (wmask p).getLsbD i = decide (95 - p ≤ i) := by
  have hin : 95 - p ≤ i → i - (95 - p) < p := by omega
  rw [BitVec.getLsbD, wmask_toNat hp, Nat.testBit_mul_two_pow, Nat.testBit_two_pow_sub_one,
    ← Bool.decide_and, decide_eq_decide]
  exact ⟨fun h => h.1, fun h => ⟨h, hin h⟩⟩

/-! ### Zero tests as bounds on a number -/

theorem eq_zero_iff_toNat {w : Nat} (x : BitVec w) : x = 0 ↔ x.toNat = 0 := by
  rw [BitVec.toNat_eq, BitVec.ofNat_eq_ofNat, BitVec.toNat_ofNat, Nat.zero_mod]

theorem shiftRight_eq_zero_iff {w : Nat} (x : BitVec w) (k : Nat) : x >>> k = 0 ↔ x.toNat < 2 ^ k := by
  rw [eq_zero_iff_toNat, BitVec.toNat_ushiftRight, Nat.shiftRight_eq_div_pow, div_pow_eq_zero_iff]

/-- A slice that ends at `hi` is 0 exactly when the number below `hi` has no bit from `lo` up. -/
theorem slice_eq_zero_iff (v : Nat) {hi lo : Nat} (h : lo ≤ hi + 1) :
    slice v hi lo = 0 ↔ v % 2 ^ (hi + 1) < 2 ^ lo := by
  have hpow : 2 ^ (hi + 1) = 2 ^ lo * 2 ^ (hi + 1 - lo) := by
    rw [← Nat.pow_add, Nat.add_sub_cancel' h]
  rw [slice, ← Nat.mod_mul_right_div_self, ← hpow, div_pow_eq_zero_iff]

/-- The masked comparison and the shifted one are the same test (R142). -/
theorem and_wmask_eq_zero_iff (x : BitVec 95) {p : Nat} (hp : p ≤ 95) :
    x &&& wmask p = 0 ↔ x >>> (95 - p) = 0 := by
  rw [BitVec.ofNat_eq_ofNat]
  constructor
  · intro h
    apply BitVec.eq_of_getLsbD_eq
    intro i _
    rw [BitVec.getLsbD_ushiftRight, BitVec.getLsbD_zero]
    by_cases hi : 95 - p + i < 95
    · have hbit := congrArg (fun y => y.getLsbD (95 - p + i)) h
      simpa [wmask_getLsbD hp hi] using hbit
    · exact BitVec.getLsbD_of_ge _ _ (Nat.le_of_not_lt hi)
  · intro h
    apply BitVec.eq_of_getLsbD_eq
    intro i hi
    rw [BitVec.getLsbD_and, wmask_getLsbD hp hi, BitVec.getLsbD_zero]
    by_cases hk : 95 - p ≤ i
    · have hbit := congrArg (fun y => y.getLsbD (i - (95 - p))) h
      simpa [Nat.add_sub_cancel' hk, hk] using hbit
    · simp [hk]

/-! ### The magnitude by the word in which its top bit stands (R76, R142) -/

theorem mag_lt_high_iff (P : Packed) (k : Nat) :
    (mag P).toNat < 2 ^ (64 + k) ↔ (high P).toNat % 2 ^ 31 < 2 ^ k := by
  have := (med P).isLt
  have := (low P).isLt
  rw [mag_toNat_words, Nat.pow_add]
  omega

theorem mag_lt_med_iff (P : Packed) {k : Nat} (hk : k ≤ 32) :
    (mag P).toNat < 2 ^ (32 + k) ↔ (high P).toNat % 2 ^ 31 = 0 ∧ (med P).toNat < 2 ^ k := by
  have hpow : 2 ^ k ≤ 2 ^ 32 := Nat.pow_le_pow_right Nat.two_pos hk
  have := (low P).isLt
  rw [mag_toNat_words, Nat.pow_add]
  omega

theorem mag_lt_low_iff (P : Packed) {k : Nat} (hk : k ≤ 32) :
    (mag P).toNat < 2 ^ k ↔
      (high P).toNat % 2 ^ 31 = 0 ∧ (med P).toNat = 0 ∧ (low P).toNat < 2 ^ k := by
  have hpow : 2 ^ k ≤ 2 ^ 32 := Nat.pow_le_pow_right Nat.two_pos hk
  rw [mag_toNat_words]
  omega

/-! ### The three ways to write the zero test -/

/-- The lowest magnitude bit that the literal formulas examine: the table of R143. -/
def litLo (p : Nat) : Nat :=
  if p ≤ 30 then 64 + p else if p ≤ 62 then p + 1 else if p ≤ 94 then p - 63 else 0

/-- The lowest magnitude bit that a build examines at a precision (R140, R143). -/
def testedFrom : ApzForm → Nat → Nat
  | .mask, p => 95 - p
  | .shiftLiteral, p => litLo p

/-- The mask form tests the window: no magnitude bit from `95 - prec` up is set (R142). -/
theorem azMask_iff {P : Packed} (hp : (prec P).toNat ≤ 95) :
    azMask P = true ↔ (mag P).toNat < 2 ^ (95 - (prec P).toNat) := by
  rw [azMask, beq_iff_eq, and_wmask_eq_zero_iff _ hp, shiftRight_eq_zero_iff]

/-- The four bands test the same window, each through the words it reaches (R142). -/
theorem azBands_iff {P : Packed} (hp : (prec P).toNat ≤ 95) :
    azBands P = true ↔ (mag P).toNat < 2 ^ (95 - (prec P).toNat) := by
  have hhs : slice (high P).toNat 30 0 = 0 ↔ (high P).toNat % 2 ^ 31 = 0 := by
    rw [slice_eq_zero_iff _ (by omega), Nat.pow_zero, Nat.lt_one_iff]
  simp only [azBands]
  split
  case isTrue h =>
    have hlo : 95 - (prec P).toNat = 64 + (31 - (prec P).toNat) := by omega
    rw [beq_iff_eq, slice_eq_zero_iff _ (by omega), hlo, mag_lt_high_iff]
  split
  case isTrue h =>
    have hlo : 95 - (prec P).toNat = 32 + (63 - (prec P).toNat) := by omega
    rw [hlo, mag_lt_med_iff P (by omega), Bool.and_eq_true, beq_iff_eq, beq_iff_eq, hhs,
      slice_eq_zero_iff _ (by omega), Nat.mod_eq_of_lt (med P).isLt]
  split
  case isTrue h =>
    have hk : 95 - (prec P).toNat ≤ 32 := by omega
    rw [mag_lt_low_iff P hk]
    simp only [Bool.and_eq_true, beq_iff_eq, hhs, slice_eq_zero_iff (hi := 31) (low P).toNat hk,
      Nat.mod_eq_of_lt (low P).isLt, and_assoc]
  case isFalse h =>
    have hlo : 95 - (prec P).toNat = 0 := by omega
    rw [hlo, mag_lt_low_iff P (by omega), Nat.pow_zero, Nat.lt_one_iff]
    simp only [Bool.and_eq_true, beq_iff_eq, hhs, and_assoc]

theorem high_and_eq_zero_iff (P : Packed) : high P &&& 0x7FFFFFFF = 0 ↔ (high P).toNat % 2 ^ 31 = 0 := by
  have hmask : (high P &&& 0x7FFFFFFF).toNat = (high P).toNat % 2 ^ 31 := by
    rw [BitVec.toNat_and]
    exact Nat.and_two_pow_sub_one_eq_mod _ 31
  rw [eq_zero_iff_toNat, hmask]

/-- Shifting the sign bit out and the magnitude bits back is a test of the top magnitude bits of `high` (R143). -/
theorem high_shifts_eq_zero_iff (P : Packed) (p : Nat) :
    (high P <<< 1) >>> (p + 1) = 0 ↔ (high P).toNat % 2 ^ 31 < 2 ^ p := by
  rw [shiftRight_eq_zero_iff, BitVec.toNat_shiftLeft, Nat.shiftLeft_eq, Nat.pow_succ]
  omega

/-- The literal form tests the magnitude from the bit of the table up (R143). -/
theorem azLit_iff {P : Packed} (hp : (prec P).toNat ≤ 95) :
    azLit P = true ↔ (mag P).toNat < 2 ^ litLo (prec P).toNat := by
  simp only [azLit]
  split
  case isTrue h =>
    have hlo : litLo (prec P).toNat = 64 + (prec P).toNat := if_pos (by omega)
    rw [beq_iff_eq, high_shifts_eq_zero_iff, hlo, mag_lt_high_iff]
  split
  case isTrue h =>
    have hlo : litLo (prec P).toNat = 32 + ((prec P).toNat - 31) := by
      rw [litLo, if_neg (by omega), if_pos (by omega)]
      omega
    rw [hlo, mag_lt_med_iff P (by omega), Bool.and_eq_true, beq_iff_eq, beq_iff_eq, high_and_eq_zero_iff,
      shiftRight_eq_zero_iff]
  split
  case isTrue h =>
    have hlo : litLo (prec P).toNat = (prec P).toNat - 63 := by
      rw [litLo, if_neg (by omega), if_neg (by omega), if_pos (by omega)]
    rw [hlo, mag_lt_low_iff P (by omega)]
    simp only [Bool.and_eq_true, beq_iff_eq, high_and_eq_zero_iff, shiftRight_eq_zero_iff, eq_zero_iff_toNat (med P),
      and_assoc]
  case isFalse h =>
    have hlo : litLo (prec P).toNat = 0 := by
      rw [litLo, if_neg (by omega), if_neg (by omega), if_neg (by omega)]
    rw [hlo, mag_lt_low_iff P (by omega), Nat.pow_zero, Nat.lt_one_iff]
    simp only [Bool.and_eq_true, beq_iff_eq, high_and_eq_zero_iff, eq_zero_iff_toNat (med P),
      eq_zero_iff_toNat (low P), and_assoc]

/-- The zero test of a build is a bound on the magnitude (R142 to R144). -/
theorem azForm_iff (form : ApzForm) {P : Packed} (hp : (prec P).toNat ≤ 95) :
    azForm form P = true ↔ (mag P).toNat < 2 ^ testedFrom form (prec P).toNat := by
  cases form with
  | mask => exact azMask_iff hp
  | shiftLiteral => exact azLit_iff hp

/-- The mask form by arithmetic on the operand's number (R140, R142). -/
theorem azMask_iff_window {P : Packed} (hp : (prec P).toNat ≤ 95) :
    azMask P = true ↔ P.toNat % 2 ^ 95 / 2 ^ (95 - (prec P).toNat) = 0 := by
  rw [azMask_iff hp, mag_toNat, div_pow_eq_zero_iff]

/-! ### Where the two forms agree (R143) -/

/-- A word of precision `p` whose magnitude is bit `k` alone. -/
def bitWord (p : Byte) (k : Nat) : Packed := BitVec.ofNat 104 (p.toNat * 2 ^ 96 + 2 ^ k)

theorem bitWord_fields (p : Byte) {k : Nat} (hk : k < 95) :
    prec (bitWord p k) = p ∧ (mag (bitWord p k)).toNat = 2 ^ k := by
  have hpow : 2 ^ k < 2 ^ 95 := Nat.pow_lt_pow_right Nat.one_lt_two hk
  have hpos := Nat.two_pow_pos k
  have hp := p.isLt
  have hfit : p.toNat * 2 ^ 96 + 2 ^ k < 2 ^ 104 := by omega
  have hword : (bitWord p k).toNat = p.toNat * 2 ^ 96 + 2 ^ k := by
    rw [bitWord, BitVec.toNat_ofNat, Nat.mod_eq_of_lt hfit]
  refine ⟨BitVec.eq_of_toNat_eq ?_, ?_⟩
  · rw [prec_toNat, hword]
    omega
  · rw [mag_toNat, hword]
    omega

/-- At one precision the forms agree on every word exactly when they examine the same bits: otherwise the
lower of the two lowest bits, alone, tells them apart. -/
theorem azLit_eq_azMask_iff {p : Byte} (hp : 1 ≤ p.toNat ∧ p.toNat ≤ 95) :
    (∀ P : Packed, prec P = p → azLit P = azMask P) ↔ litLo p.toNat = 95 - p.toNat := by
  constructor
  · intro h
    have hk : min (litLo p.toNat) (95 - p.toNat) < 95 := by omega
    obtain ⟨hprec, hmag⟩ := bitWord_fields p hk
    have hagree := Bool.eq_iff_iff.1 (h _ hprec)
    rw [azLit_iff (by rw [hprec]; exact hp.2), azMask_iff (by rw [hprec]; exact hp.2), hprec, hmag,
      Nat.pow_lt_pow_iff_right Nat.one_lt_two, Nat.pow_lt_pow_iff_right Nat.one_lt_two] at hagree
    omega
  · rintro h P rfl
    rw [Bool.eq_iff_iff, azLit_iff hp.2, azMask_iff hp.2, h]

theorem litLo_eq_iff {p : Nat} (hp : p ≤ 95) : litLo p = 95 - p ↔ p = 47 ∨ p = 79 ∨ p = 95 := by
  unfold litLo
  split_ifs <;> omega

/-! ### The predicates against one another (R149, R152) -/

/-- The approximate zero test passes wherever the magnitude is 0, under both forms. -/
theorem azForm_of_mag_eq_zero (form : ApzForm) {P : Packed} (hp : (prec P).toNat ≤ 95) (h : mag P = 0) :
    azForm form P = true := by
  rw [azForm_iff form hp, h]
  exact Nat.two_pow_pos _

theorem azForm_of_isZero (form : ApzForm) {P : Packed} (hp : (prec P).toNat ≤ 95) (h : isZero P = true) :
    azForm form P = true :=
  azForm_of_mag_eq_zero form hp ((isZero_iff P).1 h).2

/-- The exact zero test in `is_positive` is no further condition on the approximate verdict (R149). -/
theorem isApproxPositive_eq (form : ApzForm) {P : Packed} (hp : (prec P).toNat ≤ 95) :
    isApproxPositive form P = (!sign P && !azForm form P) := by
  rw [isApproxPositive, isPositive]
  cases hz : isZero P with
  | true => rw [azForm_of_isZero form hp hz, Bool.not_true, Bool.and_false, Bool.and_false]
  | false => rw [Bool.not_false, Bool.and_true]

theorem isApproxNegative_eq (form : ApzForm) (P : Packed) :
    isApproxNegative form P = (sign P && !azForm form P) := rfl

/-- Words of one precision with the same window bits are tested alike (R140, R152). -/
theorem azMask_congr {P Q : Packed} (hp : (prec P).toNat ≤ 95) (hprec : prec P = prec Q)
    (hbits : ∀ i, 95 - (prec P).toNat ≤ i → i < 95 → (mag P).getLsbD i = (mag Q).getLsbD i) :
    azMask P = azMask Q := by
  have hwindow : mag P &&& wmask (prec P).toNat = mag Q &&& wmask (prec P).toNat := by
    apply BitVec.eq_of_getLsbD_eq
    intro i hi
    rw [BitVec.getLsbD_and, BitVec.getLsbD_and, wmask_getLsbD hp hi]
    by_cases hk : 95 - (prec P).toNat ≤ i
    · rw [hbits i hk hi]
    · rw [decide_eq_false hk, Bool.and_false, Bool.and_false]
  rw [azMask, azMask, hwindow, hprec]

theorem mag_toNat_eq_field (P : Packed) : (mag P).toNat = (field P).toNat % 2 ^ 95 := by
  rw [mag_toNat, field_toNat]
  omega

/-- The window of a smaller precision is part of that of a greater one (R152). -/
theorem azMask_antitone {P Q : Packed} (hQ : (prec Q).toNat ≤ 95) (hfield : field P = field Q)
    (hle : (prec P).toNat ≤ (prec Q).toNat) (h : azMask Q = true) : azMask P = true := by
  rw [azMask_iff hQ, mag_toNat_eq_field] at h
  rw [azMask_iff (hle.trans hQ), mag_toNat_eq_field, hfield]
  exact h.trans_le (Nat.pow_le_pow_right Nat.two_pos (by omega))

/-! ### The commands of this hardware on a valid operand -/

theorem azForm_apzForm (P : Packed) : azForm Config.apzForm P = azMask P := rfl

theorem exec_isaz_of_valid {P : Packed} (s : State) (h : valid P = true) :
    exec (.isaz P) s = .next (afterSuccess (boolResult (azMask P)) s) :=
  exec_of_valid (f := fun P => boolResult (azForm Config.apzForm P)) rfl h

theorem exec_isap_of_valid {P : Packed} (s : State) (h : valid P = true) :
    exec (.isap P) s = .next (afterSuccess (boolResult (isApproxPositive .mask P)) s) :=
  exec_of_valid (f := fun P => boolResult (isApproxPositive Config.apzForm P)) rfl h

theorem exec_isan_of_valid {P : Packed} (s : State) (h : valid P = true) :
    exec (.isan P) s = .next (afterSuccess (boolResult (isApproxNegative .mask P)) s) :=
  exec_of_valid (f := fun P => boolResult (isApproxNegative Config.apzForm P)) rfl h

/-- The class vector as the weighted sum of the six results (R79, R148). -/
theorem classVector_eq_sum (form : ApzForm) (P : Packed) :
    classVector form P =
      32 * boolResult (isApproxNegative form P) + 16 * boolResult (isApproxPositive form P)
        + 8 * boolResult (azForm form P) + 4 * boolResult (isNegative P) + 2 * boolResult (isPositive P)
        + boolResult (isZero P) := by
  unfold classVector
  generalize isApproxNegative form P = an, isApproxPositive form P = ap, azForm form P = az,
    isNegative P = n, isPositive P = p, isZero P = z
  revert an ap az n p z
  decide

/-! ### The obligations -/

/-- Settles O34: the mask's number is exact, and its bits are those of a block of ones shifted up. -/
theorem windowMaskIsExact : Obligations.WindowMaskIsExact :=
  ⟨fun _ _ hp => ⟨wmask_toNat hp, fun _ => wmask_getLsbD hp⟩, by decide, wmask_toNat (p := 95) le_rfl⟩

/-- Settles O35: the comparison, the shift and the bands are one bound on the magnitude. -/
theorem maskTestEqualsTheBands : Obligations.MaskTestEqualsTheBands := by
  intro P hv
  have hp := ((valid_iff P).1 hv).2
  rw [azForm_apzForm]
  refine ⟨rfl, ?_, ?_⟩ <;> rw [Bool.eq_iff_iff, azMask_iff hp]
  · rw [beq_iff_eq, shiftRight_eq_zero_iff]
  · rw [azBands_iff hp]

/-- Settles O36: the slice of the table is the literal form's bound, which is the window's at three
precisions. -/
theorem literalTestClosedForm : Obligations.LiteralTestClosedForm := by
  refine ⟨fun P hv => ?_, fun p h1 h95 => ?_⟩
  · have hp := ((valid_iff P).1 hv).2
    have hlo : litLo (prec P).toNat ≤ 94 + 1 := by
      unfold litLo
      split_ifs <;> omega
    have hslice : slice (mag P).toNat 94 (litLo (prec P).toNat) = 0 ↔
        (mag P).toNat < 2 ^ litLo (prec P).toNat := by
      rw [slice_eq_zero_iff _ hlo, Nat.mod_eq_of_lt (mag P).isLt]
    rw [Bool.eq_iff_iff, azLit_iff hp, beq_iff_eq]
    exact hslice.symm
  · rw [azLit_eq_azMask_iff ⟨h1, h95⟩, litLo_eq_iff h95]
    simp only [BitVec.toNat_eq]
    rfl

/-- Settles O37: the zero test is one of the window's number. -/
theorem isazTestsTheWindow : Obligations.IsazTestsTheWindow := by
  intro s P
  refine ⟨decode_dform .isaz P, fun hp => ?_, exec_of_not_valid rfl⟩
  rw [exec_isaz_of_valid s ((valid_iff P).2 hp)]
  simp only [boolResult, azMask_iff_window hp.2]

/-- Settles O38: the exact positive test and the window's number. -/
theorem isapTestsSignAndWindow : Obligations.IsapTestsSignAndWindow := by
  intro s P
  refine ⟨decode_dform .isap P, fun hp => ?_, exec_of_not_valid rfl⟩
  rw [exec_isap_of_valid s ((valid_iff P).2 hp)]
  simp only [boolResult, isApproxPositive, azForm, Bool.and_eq_true, Bool.not_eq_true', ← Bool.not_eq_true,
    isPositive_iff_field, field_toNat, azMask_iff_window hp.2, ne_eq]

/-- Settles O39: the sign and the window's number. -/
theorem isanTestsSignAndWindow : Obligations.IsanTestsSignAndWindow := by
  intro s P
  refine ⟨decode_dform .isan P, fun hp => ?_, exec_of_not_valid rfl⟩
  rw [exec_isan_of_valid s ((valid_iff P).2 hp)]
  simp only [boolResult, isApproxNegative, azForm, Bool.and_eq_true, Bool.not_eq_true', ← Bool.not_eq_true,
    isNegative_iff_field, field_toNat, azMask_iff_window hp.2, ne_eq]

/-- Settles O41: `CLASS` adds up the six results, each at the weight of its bit. -/
theorem classAgreesWithSingleCommands : Obligations.ClassAgreesWithSingleCommands := by
  intro s P hv
  refine ⟨_, _, _, _, _, _, exec_isz_of_valid s hv, exec_isp_of_valid s hv, exec_isn_of_valid s hv,
    exec_isaz_of_valid s hv, exec_isap_of_valid s hv, exec_isan_of_valid s hv, ?_⟩
  rw [exec_classify_of_valid s ((valid_iff P).1 hv), classVector_eq_sum]
  rfl

/-- Settles O42: where the zero test fails the magnitude is not 0, and the sign decides. -/
theorem approximateTrichotomy : Obligations.ApproximateTrichotomy := by
  intro form P hv
  have hp := ((valid_iff P).1 hv).2
  rw [isApproxPositive_eq form hp, isApproxNegative_eq]
  refine ⟨?_, fun haz => ⟨fun hmag => ?_, ?_⟩, fun haz hs => ?_, fun haz hs => ?_⟩
  · cases azForm form P with
    | true => simp
    | false => cases sign P <;> simp
  · exact Bool.noConfusion (haz.symm.trans (azForm_of_mag_eq_zero form hp hmag))
  · rw [← Bool.not_eq_true]
    exact fun hz => Bool.noConfusion (haz.symm.trans (azForm_of_isZero form hp hz))
  · rw [haz, hs]
    rfl
  · rw [haz, hs]
    rfl

/-- Settles O43: at precision 95 both forms examine the magnitude from bit 0 up. -/
theorem fullPrecisionTestsTheMagnitude : Obligations.FullPrecisionTestsTheMagnitude := by
  intro form P h95
  have hlo : testedFrom form (prec P).toNat = 0 := by
    rw [h95]
    cases form <;> rfl
  have haz : azForm form P = true ↔ mag P = 0 := by
    rw [azForm_iff form h95.le, hlo, Nat.pow_zero, Nat.lt_one_iff, eq_zero_iff_toNat]
  exact ⟨by rw [Bool.eq_iff_iff, haz, beq_iff_eq], by rw [Bool.eq_iff_iff, haz, isZero_unsignWord_iff]⟩

/-- Settles O44: the window is bit 94, and the literal form reads from bit 65 up, so bit 1 of `high` alone
fails it. -/
theorem precisionOneTestsOneBit : Obligations.PrecisionOneTestsOneBit := by
  refine ⟨fun P h1 => ?_, fun P h1 => ?_, 0x01_00000002_00000000_00000000, by decide⟩
  · have hbit : (high P).getLsbD 30 = decide (2 ^ 94 ≤ (mag P).toNat) := by
      rw [high_getLsbD P (by decide), ← mag_getLsbD P (by decide)]
      exact BitVec.msb_eq_decide (mag P)
    rw [Bool.eq_iff_iff, azMask_iff (by omega), h1, hbit, Bool.not_eq_true', decide_eq_false_iff_not, Nat.not_le]
  · have hlo : litLo (prec P).toNat = 64 + 1 := by rw [h1]; rfl
    rw [Bool.eq_iff_iff, azLit_iff (by omega), hlo, mag_lt_high_iff, beq_iff_eq, slice_eq_zero_iff _ (by decide)]

/-- Settles O45: the verdicts read the sign and the window alone, and a smaller window is part of a greater;
bit 1 of `high` is examined by the literal form at precision 1 and not at 30. -/
theorem windowLaws : Obligations.WindowLaws := by
  refine ⟨fun s P Q hP hprec hsign hbits => ?_, fun P Q _ hQ => azMask_antitone ((valid_iff Q).1 hQ).2,
    fun P hP => azForm_of_isZero .mask ((valid_iff P).1 hP).2,
    0x01_00000002_00000000_00000000, 0x1E_00000002_00000000_00000000, by decide⟩
  have hp := ((valid_iff P).1 hP).2
  have hq : (prec Q).toNat ≤ 95 := hprec ▸ hp
  have hQ : valid Q = true := (valid_iff Q).2 (hprec ▸ (valid_iff P).1 hP)
  have haz : azForm .mask P = azForm .mask Q := azMask_congr hp hprec hbits
  refine ⟨?_, ?_, ?_⟩
  · rw [exec_isaz_of_valid s hP, exec_isaz_of_valid s hQ, azMask_congr hp hprec hbits]
  · rw [exec_isap_of_valid s hP, exec_isap_of_valid s hQ, isApproxPositive_eq .mask hp, isApproxPositive_eq .mask hq,
      hsign, haz]
  · rw [exec_isan_of_valid s hP, exec_isan_of_valid s hQ, isApproxNegative_eq, isApproxNegative_eq, hsign, haz]

end Sys2Proof.Machine

/-! ## String conversion (44_string.md) -/

namespace Sys2Proof.Machine

/-- `TOSTR` fails with the code of `UNSUPPORTED` in every state (R170). -/
theorem exec_tostr (s : State) : exec .tostr s = .next (afterError 2 s) := rfl

theorem exec_czero (s : State) : exec .czero s = .next (afterSuccess 0x5F_00000000_00000000_00000000 s) := rfl

/-- Settles O26: `TOSTR` is an N-format command, so any operand field decodes to it. In the rule's example it
keeps the result of `CZERO` and its `RV`. -/
theorem tostrIsUnsupported : Obligations.TostrIsUnsupported := by
  refine fun s => ⟨decode_nform .tostr, exec_tostr s, fun t hzero => ?_⟩
  have ht : afterSuccess 0x5F_00000000_00000000_00000000 State.reset = t :=
    Host.Outcome.next.inj ((exec_czero State.reset).symm.trans hzero)
  subst ht
  exact ⟨_, exec_tostr _, rfl, by decide⟩

end Sys2Proof.Machine

/-! ## Errors and the order of the checks (60_exceptions.md) -/

namespace Sys2Proof.Machine

/-! ### Accept edges by the format of the command -/

/-- An accept edge with a D-format opcode runs its command on the operand (R71, R212). -/
theorem step_present_dform (m : DMnemonic) {s : State} {opa : Packed} {rest : List HostEvent}
    (h : s.host = present (command (m.instr 0).opcode opa) :: rest) :
    step s = exec (m.instr opa) { s with host := rest } :=
  step_present_ok h (decode_dform m opa)

/-- An accept edge with an N-format opcode runs its command, whatever the operand (R72, R212). -/
theorem step_present_nform (m : NMnemonic) {s : State} {opa : Packed} {rest : List HostEvent}
    (h : s.host = present (command m.instr.opcode opa) :: rest) :
    step s = exec m.instr { s with host := rest } :=
  step_present_ok h (decode_nform m opa)

/-- Every D-format command but `VALIDATE` has the validation step (R101). -/
theorem exec_dform_eq_withValid {m : DMnemonic} (hm : m ≠ .validate) :
    ∃ f, ∀ P s, exec (m.instr P) s = .next (withValid P f s) := by
  cases m with
  | validate => exact absurd rfl hm
  | new | unsign | isz | isp | isn | isaz | isap | isan | classify => exact ⟨_, fun _ _ => rfl⟩

/-- The third check of R186 stands before every D-format command but `VALIDATE`. -/
theorem step_present_eq_withValid {s : State} {op : Byte} {opa : Packed} {rest : List HostEvent}
    (hd : op ∈ dOpcodes) (hne : op ≠ 0x02) (h : s.host = present (command op opa) :: rest) :
    ∃ f, step s = .next (withValid opa f { s with host := rest }) := by
  obtain ⟨m, rfl⟩ := (mem_dOpcodes_iff op).1 hd
  have hm : m ≠ .validate := fun he => hne (by rw [he]; rfl)
  obtain ⟨f, hf⟩ := exec_dform_eq_withValid hm
  exact ⟨f, (step_present_dform m h).trans (hf _ _)⟩

/-! ### The obligations -/

/-- Settles O46: the codes that the error protocol can write here are those of the two error causes other than a
reserved opcode. -/
theorem commandsSucceedOrFail : Obligations.CommandsSucceedOrFail := by
  intro i s
  obtain ⟨v, _, he⟩ | ⟨c, hc, he⟩ := endsByProtocol i
  · exact .inl ⟨v, he s⟩
  · cases c with
    | invalidPrecision => exact .inr (.inl (he s))
    | unsupported => exact .inr (.inr (he s))
    | illegalOpcode => exact absurd rfl hc

/-- Settles O8: the decoder makes the first check, `TOSTR` is the second, the validation step the third, and
what is left succeeds. -/
theorem checksInOrder : Obligations.ChecksInOrder := by
  intro s op opa rest h
  refine ⟨fun hop => step_present_reserved hop h, ?_, fun hd hne hp => ?_, ?_⟩
  · rintro rfl
    exact (step_present_nform .tostr h).trans (exec_tostr _)
  · obtain ⟨f, hf⟩ := step_present_eq_withValid hd hne h
    rw [hf, withValid_of_not_valid f _ hp]
    rfl
  · have hvalidate : op = 0x02 → ∃ v, step s = .next (afterSuccess v { s with host := rest }) := by
      rintro rfl
      exact ⟨_, (step_present_dform .validate h).trans (exec_validate opa _)⟩
    rintro (hv | rfl | rfl | rfl | ⟨hd, hp⟩)
    · exact hvalidate hv
    · exact ⟨_, step_present_nform .cmax h⟩
    · exact ⟨_, step_present_nform .cmin h⟩
    · exact ⟨_, step_present_nform .czero h⟩
    · by_cases hv : op = 0x02
      · exact hvalidate hv
      · obtain ⟨f, hf⟩ := step_present_eq_withValid hd hv h
        exact ⟨f opa, by rw [hf, withValid_of_valid f _ hp]; rfl⟩

end Sys2Proof.Machine

/-! ## Reset, edges and observed runs (70_reset_and_hazards.md) -/

namespace Sys2Proof.Machine

/-! ### One step by the kind of the edge -/

theorem nextKind_edge {s : State} {p : Pins} {rest : List HostEvent} (h : s.host = .edge p :: rest) :
    nextKind s = p.kind s := by
  simp only [nextKind, h]

theorem step_resetEdge {s : State} (h : nextKind s = .resetEdge) : step s = .next (resetRegs (advance s)) := by
  simp only [step, h]

theorem step_idleEdge {s : State} (h : nextKind s = .idleEdge) : step s = .next (advance s) := by
  simp only [step, h]

/-- An edge with three levels is neither a read nor undefined, so no reason to stop applies (R216, R220). -/
theorem step_definedEdge {s : State} {e : HostEvent} {rest : List HostEvent} (h : s.host = e :: rest)
    (he : definedEdge e = true) : ∃ t, step s = .next t ∧ t.host = rest := by
  obtain ⟨t, ht, _⟩ | ⟨_, hk, _⟩ | ⟨_, hk⟩ | ⟨_, hk, _⟩ := step_cases s
  · exact ⟨t, ht, by rw [step_next_host ht, h, List.tail_cons]⟩
  · obtain rfl : e = .readResult := by simpa [nextKind_resultRead_iff, h] using hk
    cases he
  · obtain ⟨p, rfl, hp⟩ : ∃ p, e = .edge p ∧ (p.rst = none ∨ p.cmdValid = none ∨ p.cmd = none) := by
      simpa [nextKind_undefinedEdge_iff, h] using hk
    obtain ⟨_ | _, _ | _, _ | _⟩ := p <;> simp [definedEdge] at he hp
  · obtain rfl : e = .readStatus := by simpa [nextKind_statusRead_iff, h] using hk
    cases he

/-! ### Runs over defined edges -/

/-- The block takes every event of the host's list, a step for each. -/
inductive RunsToEnd : State → Prop where
  | nil {s : State} (hh : s.host = []) : RunsToEnd s
  | cons {s t : State} {e : HostEvent} {rest : List HostEvent} (hh : s.host = e :: rest)
      (hs : step s = .next t) (ht : t.host = rest) (hrun : RunsToEnd t) : RunsToEnd s

/-- A list of defined edges is taken to its end (R216, R222). -/
theorem runsToEnd_of_definedEdges {s : State} (hdef : s.host.all definedEdge = true) : RunsToEnd s := by
  induction hh : s.host generalizing s with
  | nil => exact .nil hh
  | cons e rest ih =>
    rw [hh, List.all_cons, Bool.and_eq_true] at hdef
    obtain ⟨he, hrest⟩ := hdef
    obtain ⟨t, hs, ht⟩ := step_definedEdge hh he
    exact .cons hh hs ht (ih (by rwa [ht]) ht)

/-- The state after `k` steps; where the run has stopped earlier, the reset state, of which no claim is made. -/
def stateAfter (k : Nat) (s : State) : State :=
  match Host.Core.run Sys2Proof.core k s with
  | .next t => t
  | _ => State.reset

@[simp] theorem stateAfter_zero (s : State) : stateAfter 0 s = s := rfl

theorem stateAfter_succ {s t : State} (h : step s = .next t) (k : Nat) :
    stateAfter (k + 1) s = stateAfter k t := by
  rw [stateAfter, run_of_step h, stateAfter]

theorem RunsToEnd.run_eq {s : State} (h : RunsToEnd s) :
    ∀ k ≤ s.host.length, Host.Core.run Sys2Proof.core k s = .next (stateAfter k s) := by
  induction h with
  | nil hh =>
    intro k hk
    obtain rfl : k = 0 := by simpa [hh] using hk
    rfl
  | cons hh hs ht _ ih =>
    intro k hk
    cases k with
    | zero => rfl
    | succ k =>
      rw [run_of_step hs, stateAfter_succ hs]
      exact ih k (by simpa [hh, ht] using hk)

theorem RunsToEnd.stateAfter_length_host {s : State} (h : RunsToEnd s) :
    (stateAfter s.host.length s).host = [] := by
  induction h with
  | nil hh => rw [hh, List.length_nil, stateAfter_zero, hh]
  | cons hh hs ht _ ih => rwa [hh, List.length_cons, stateAfter_succ hs, ← ht]

/-! ### The observation of a run -/

/-- The outputs after each accept edge of `es`, where `u k` is the state after the first `k` events (R222). -/
def acceptOutputs (es : List HostEvent) (u : Nat → State) : List (Packed × Byte) :=
  ((List.range es.length).filter (fun k => (es[k]?).any acceptsAt)).map (fun k => outputs (u (k + 1)))

theorem acceptOutputs_cons (e : HostEvent) (es : List HostEvent) (u : Nat → State) :
    acceptOutputs (e :: es) u =
      if acceptsAt e then outputs (u 1) :: acceptOutputs es (fun k => u (k + 1))
      else acceptOutputs es (fun k => u (k + 1)) := by
  have htail : acceptOutputs es (fun k => u (k + 1)) =
      ((((List.range es.length).map Nat.succ).filter (fun k => ((e :: es)[k]?).any acceptsAt)).map
        (fun k => outputs (u (k + 1)))) := by
    rw [List.filter_map, List.map_map]
    rfl
  rw [htail, acceptOutputs, List.length_cons, List.range_succ_eq_map, List.filter_cons]
  cases h : acceptsAt e <;> simp [h]

/-- There is one pair for each accept edge. -/
theorem length_acceptOutputs (es : List HostEvent) (u : Nat → State) :
    (acceptOutputs es u).length = es.countP acceptsAt := by
  induction es generalizing u with
  | nil => rfl
  | cons e es ih =>
    rw [acceptOutputs_cons, List.countP_cons]
    split <;> simp [ih]

/-- The observation, written through the run itself (R222). -/
theorem RunsToEnd.observe_eq {s : State} (h : RunsToEnd s) :
    observe s = .next { accepts := acceptOutputs s.host (stateAfter · s),
                        last := outputs (stateAfter s.host.length s) } := by
  induction h with
  | nil hh =>
    rw [observe, hh]
    rfl
  | cons hh hs ht _ ih =>
    rw [observe, ht] at ih
    rw [observe, hh, List.length_cons, observeSteps_of_step hh hs ih, acceptOutputs_cons]
    simp only [stateAfter_succ hs, stateAfter_zero]
    split <;> rfl

/-! ### The obligations -/

/-- Settles O10: a defined edge leaves a step no reason to stop, and a step takes one event. -/
theorem everyDefinedEdgeIsTaken : Obligations.EveryDefinedEdgeIsTaken :=
  fun _ _ _ h he => step_definedEdge h he

/-- Settles O13: `u k` is the state after `k` steps, and the observation is that of the run through these. -/
theorem observationHasEveryAccept : Obligations.ObservationHasEveryAccept := by
  intro s hdef
  have hend : RunsToEnd s := runsToEnd_of_definedEdges hdef
  exact ⟨_, (stateAfter · s), hend.observe_eq, hend.run_eq, rfl, length_acceptOutputs s.host (stateAfter · s),
    rfl, hend.stateAfter_length_host⟩

/-- Settles O50: a command ends by one protocol, with one result or one code, in every state. -/
theorem writesDoNotDependOnRegisters : Obligations.WritesDoNotDependOnRegisters := by
  intro i s t
  obtain ⟨v, _, he⟩ | ⟨c, _, he⟩ := endsByProtocol i
  · exact .inl ⟨v, he s, he t⟩
  · exact .inr ⟨c.bits, he s, he t⟩

/-- Settles O2: `RST = 1` makes a reset edge, whatever the other two levels. -/
theorem resetEdgeClearsRegisters : Obligations.ResetEdgeClearsRegisters := by
  intro s v c rest h
  have hk : nextKind s = .resetEdge := nextKind_edge h
  rw [step_resetEdge hk, advance_cons h, resetRegs]

/-- Settles O3: without reset and command the step only moves the host's list on. -/
theorem idleEdgeKeepsRegisters : Obligations.IdleEdgeKeepsRegisters := by
  intro s c rest h
  have hk : nextKind s = .idleEdge := nextKind_edge h
  rw [step_idleEdge hk, advance_cons h]

/-- Settles O4: the empty list makes an idle edge, and there is nothing to move on. -/
theorem emptyHostListIdles : Obligations.EmptyHostListIdles := by
  intro s h
  have hk : nextKind s = .idleEdge := by simp only [nextKind, h]
  have hadv : advance s = s := by rw [advance, h, List.tail_nil, ← h]
  rw [step_idleEdge hk, hadv]

/-- Settles O5, by the step on an accept edge whose word decodes. -/
theorem stepRunsDecodedCommand : Obligations.StepRunsDecodedCommand :=
  fun _ _ _ _ h hd _ => step_present_ok h hd

/-- Settles O9: a port without a level makes the edge undefined, whatever the other two levels. -/
theorem undefinedInputIsRefused : Obligations.UndefinedInputIsRefused := by
  intro s p rest h hp
  have hk : nextKind s = .undefinedEdge := (nextKind_edge h).trans ((pins_kind_undefinedEdge_iff s p).2 hp)
  exact (step_eq_refused_iff s _).2 (.inl ⟨rfl, hk⟩)

end Sys2Proof.Machine
